-- ==== Sys2Proof/Word.lean ====
section
/-! DEFINITION. Word.lean: the bit-vector types the spec's values have. -/

namespace Sys2Proof

/-- One byte of the data memory (20_memory.md R50), or one pixel of a render target (R82). -/
abbrev Byte := BitVec 8

/-- A packed word, a descriptor word or a register: 32 bits, bit 0 least significant (R7, R10, R24). -/
abbrev Word := BitVec 32

/-- A buffer address as the descriptor holds it: 64 bits (R7 `ADDR_WIDTH`, R85). -/
abbrev Addr := BitVec 64

end Sys2Proof
end

