-- ==== Sys2Proof/Config.lean ====
section
/-! DEFINITION. Config.lean: the open parameters of 00_scope.md R9 and the free values. -/

namespace Sys2Proof

/-- A half-open range of byte addresses `[lo, hi)`; empty when `hi ≤ lo` (R205). Used for the footprints of a
command and for the byte ranges the launch memory admits. -/
structure ByteRange where
  lo : Nat
  hi : Nat
  deriving DecidableEq, Repr

/-- `PRNG_CHAIN`: how the two generator applications chain (R9, R117, D11). -/
inductive PrngChain where
  /-- `STATE_CHAIN`, the default. -/
  | stateChain
  /-- `VALUE_CHAIN`, the named alternative. -/
  | valueChain
  deriving DecidableEq, Repr

/-- `SEED_MIX`: the seed-mixing formula (R9, R116, D10). -/
inductive SeedMix where
  /-- `XOR_MUL`, the default and only defined value. -/
  | xorMul
  deriving DecidableEq, Repr

/-- The open parameters of R9, with which a run is launched. No step changes them. -/
structure Params where
  /-- `REG_BASE`: where the register block sits in the host's address space (R24, D4). -/
  regBase : Nat
  /-- The byte ranges of the data memory that exist (R50, D5); see `Params.admits` for the predicate. -/
  admitted : List ByteRange
  /-- `PRNG_CHAIN`. -/
  prngChain : PrngChain
  /-- `SEED_MIX`. -/
  seedMix : SeedMix
  deriving DecidableEq, Repr

/-- FREE VALUE (log 4). Which pending work item the n-th unscripted choice performs: any (R204). -/
opaque Config.freePick : Nat → Nat

/-- FREE VALUE (log 5). Whether the n-th byte a host read draws inside the active write footprint is the byte's old
value; if not, it is the one an item performed so far wrote (R217, D19). -/
opaque Config.raceReadsOld : Nat → Bool

end Sys2Proof
end

