-- ==== Sys2Proof/Syntax.lean ====
section
/-! DEFINITION. Syntax.lean: the three commands of the opcode table, as the decoded records of R87, and the refusal codes. -/

namespace Sys2Proof

/-- The decoded command (30_encoding.md R87), one constructor per row of the opcode table (R89). An address is the
64-bit value of R85; an i32 field is kept as its 32 bits and read in two's complement where it is used (R86). -/
inductive Instr where
  /-- INIT{grid, seed, W, ex, ey}. -/
  | init (grid : Addr) (seed : Word) (w : Word) (ex : Word) (ey : Word)
  /-- STEP{cur, nxt, G, W, ex, ey}. -/
  | step (cur : Addr) (nxt : Addr) (g : Word) (w : Word) (ex : Word) (ey : Word)
  /-- RENDER{grid, out, G, W, xo, yo, width, ey}. -/
  | render (grid : Addr) (out : Addr) (g : Word) (w : Word) (xo : Word) (yo : Word) (width : Word) (ey : Word)
  deriving DecidableEq, Repr

/-- The refusal codes of 60_exceptions.md R231 and R242, in their order. -/
inductive RefusalCode where
  /-- 1 (R232): a doorbell while a command runs. -/
  | doorbellWhileBusy
  /-- 2 (R233): a descriptor register still unwritten is submitted or read. -/
  | descUnwritten
  /-- 3 (R234): `DESC[0]` is not 0, 1 or 2. -/
  | illegalOpcode
  /-- 4 (R235): a word reserved for the opcode is not zero. -/
  | reservedNonzero
  /-- 5 (R236): an i32 operand is negative. -/
  | negativeParam
  /-- 6 (R237): `GRID_SIZE` is not a multiple of 32. -/
  | gridNotMult32
  /-- 7 (R238): `WIDTH_IN_UINTS` is not `GRID_SIZE / 32`. -/
  | widthMismatch
  /-- 8 (R239): a word-buffer address is not a multiple of 4. -/
  | misalignedWordBuffer
  /-- 9 (R240): a non-empty footprint ends past 2^64. -/
  | footprintOverflow
  /-- 10 (R241): the read and the write footprint share a byte. -/
  | bufferOverlap
  /-- 11 (R242): a register access of another width or at another offset. -/
  | registerAccess
  deriving DecidableEq, Repr

/-- A work-item coordinate `(x, y)` of a command's index space (R29, R202). -/
abbrev Item := Nat × Nat

end Sys2Proof
end

