-- ==== Sys2Proof/Machine/Generator.lean ====
section
/-! DEFINITION. Machine/Generator.lean: the seeded word generator (40_generator_init.md R110 to R117). Every function is
pure: no generator state outlives a work item (R115). -/

namespace Sys2Proof.Machine

/-- R111 `PCG_MUL`. -/
def pcgMul : Word := 747796405#32
/-- R111 `PCG_INC`. -/
def pcgInc : Word := 2891336453#32
/-- R111 `PCG_OUT_MUL`. -/
def pcgOutMul : Word := 277803737#32
/-- R116: the constant of the word-column. -/
def mixColumn : Word := 2654435761#32
/-- R116: the constant of the row. -/
def mixRow : Word := 0x9E3779B9#32

/-- R112: the state advance, modulo 2^32. -/
def genAdvance (s : Word) : Word := s * pcgMul + pcgInc

/-- R113: the shift amount `(s >> 28) + 4`. -/
def genShift (s : Word) : Nat := (s >>> 28).toNat + 4

/-- R113: the output transform of the state before the advance. -/
def genOutput (s : Word) : Word :=
  let w := ((s >>> genShift s) ^^^ s) * pcgOutMul
  (w >>> 22) ^^^ w

/-- R114: one application: the value and the advanced state. -/
def gen (s : Word) : Word × Word := (genOutput s, genAdvance s)

/-- R116: the initial state of the item at word-column `x`, row `y`. -/
def seedMix (m : SeedMix) (x y : Nat) (seed : Word) : Word :=
  match m with
  | .xorMul => (BitVec.ofNat 32 x * mixColumn) ^^^ (BitVec.ofNat 32 y * mixRow) ^^^ seed

/-- R117: two chained applications. -/
def genTwice (c : PrngChain) (s : Word) : Word :=
  match c with
  | .stateChain => (gen (gen s).2).1
  | .valueChain => genOutput (genAdvance (genOutput (genAdvance s)))

/-- R117: the word an INIT item stores. -/
def initWord (p : Params) (x y : Nat) (seed : Word) : Word := genTwice p.prngChain (seedMix p.seedMix x y seed)

end Sys2Proof.Machine
end

