-- ==== Sys2Proof/Machine/Operands.lean ====
section
/-! DEFINITION. Machine/Operands.lean: how a command's fields are read (R85, R86), its index space (R202), its
footprints (R205), and the addresses of words and pixels (R52, R54). -/

namespace Sys2Proof

/-- R85: `{HI, LO}`, with no sign extension and no scaling. -/
def joinAddr (hi lo : Word) : Addr := hi ++ lo

/-- The low 32 bits of an address (R83 `A_LO`, `B_LO`). -/
def addrLo (a : Addr) : Word := a.extractLsb' 0 32

/-- The high 32 bits of an address (R83 `A_HI`, `B_HI`). -/
def addrHi (a : Addr) : Word := a.extractLsb' 32 32

/-- R86: the i32 operand is negative when read in two's complement. -/
def isNegative (v : Word) : Bool := decide (v.toInt < 0)

/-- R86: the value of a non-negative i32 operand as an exact integer (R12). A negative one, which no accepted
command has (R236), reads as 0 here (log 19). -/
def natOfI32 (v : Word) : Nat := v.toInt.toNat

/-- R52: the linear word index of row `y`, word-column `x`, with `W` words per row. -/
def wordIndex (W y x : Nat) : Nat := y * W + x

/-- R52, R13: the byte address of word `i` of the word buffer at `base`, an exact integer. -/
def wordAddr (base i : Nat) : Nat := base + 4 * i

/-- R54: the byte address of local pixel `(x, y)` of a target at `out` that is `width` pixels wide. -/
def pixelAddr (out width x y : Nat) : Nat := out + y * width + x

/-- R202: every `(x, y)` with `x < ex` and `y < ey`, once each. The order of the list says nothing (R204). -/
def grid2D (ex ey : Nat) : List Item :=
  (List.range ey).flatMap fun y => (List.range ex).map fun x => (x, y)

/-- R202: the index space of a command; RENDER's x size is its `width` (R181). -/
def Instr.indexSpace : Instr → List Item
  | .init _ _ _ ex ey => grid2D ex.toNat ey.toNat
  | .step _ _ _ _ ex ey => grid2D ex.toNat ey.toNat
  | .render _ _ _ _ _ _ width ey => grid2D (natOfI32 width) ey.toNat

/-- R236: the i32 operands the command uses. -/
def Instr.i32Operands : Instr → List Word
  | .init _ _ w _ _ => [w]
  | .step _ _ g w _ _ => [g, w]
  | .render _ _ g w xo yo width _ => [g, w, xo, yo, width]

/-- R237, R238: `(GRID_SIZE, WIDTH_IN_UINTS)` of the commands that carry both. -/
def Instr.gridShape : Instr → Option (Word × Word)
  | .init _ _ _ _ _ => none
  | .step _ _ g w _ _ => some (g, w)
  | .render _ _ g w _ _ _ _ => some (g, w)

/-- R239: the word-buffer addresses of the command: `A` for every command and `B` for STEP. -/
def Instr.wordBuffers : Instr → List Addr
  | .init grid _ _ _ _ => [grid]
  | .step cur nxt _ _ _ _ => [cur, nxt]
  | .render grid _ _ _ _ _ _ _ => [grid]

/-- R93, D25: the command's grid has no cell, `GRID_SIZE` and `WIDTH_IN_UINTS` being 0. -/
def Instr.gridEmpty (i : Instr) : Bool :=
  match i.gridShape with
  | none => false
  | some (g, w) => decide (natOfI32 g = 0) && decide (natOfI32 w = 0)

/-- The work items an accepted doorbell leaves to perform: the index space (R202), but none of a command with an empty
grid, all of whose items skip and which completes at once (R93, D25; log 23). -/
def Instr.itemsAtStart (i : Instr) : List Item := if i.gridEmpty then [] else i.indexSpace

/-- R205: the read footprint `RF`. -/
def Instr.readFootprint : Instr → ByteRange
  | .init grid _ _ _ _ => ⟨grid.toNat, grid.toNat⟩
  | .step cur _ g w _ _ => ⟨cur.toNat, cur.toNat + 4 * natOfI32 g * natOfI32 w⟩
  | .render grid _ g w _ _ _ _ => ⟨grid.toNat, grid.toNat + 4 * natOfI32 g * natOfI32 w⟩

/-- R205: the write footprint `WF`; INIT's is empty when `ex = 0`. -/
def Instr.writeFootprint : Instr → ByteRange
  | .init grid _ w ex ey =>
    if ex.toNat = 0 then ⟨grid.toNat, grid.toNat⟩ else ⟨grid.toNat, grid.toNat + 4 * ey.toNat * natOfI32 w⟩
  | .step _ nxt g w _ _ => ⟨nxt.toNat, nxt.toNat + 4 * natOfI32 g * natOfI32 w⟩
  | .render _ out _ _ _ _ width ey => ⟨out.toNat, out.toNat + natOfI32 width * ey.toNat⟩

/-- A byte lies in a half-open range (R205). -/
def ByteRange.holds (r : ByteRange) (a : Nat) : Bool := decide (r.lo ≤ a) && decide (a < r.hi)

/-- R205: a range with `hi ≤ lo` is empty. -/
def ByteRange.nonempty (r : ByteRange) : Bool := decide (r.lo < r.hi)

/-- R241: two ranges share a byte. -/
def ByteRange.overlaps (r q : ByteRange) : Bool := decide (max r.lo q.lo < min r.hi q.hi)

/-- R7 `ADDR_WIDTH`: the number of bytes of the 64-bit address space. -/
def addressSpace : Nat := 2 ^ 64

/-- R50, D5: the launch-memory predicate `admitted(addr, n)`: the `n` bytes at `addr` exist and may be accessed
(log 9). -/
def Params.admits (p : Params) (addr n : Nat) : Bool :=
  decide (addr + n ≤ addressSpace) && (List.range n).all fun k => p.admitted.any fun r => r.holds (addr + k)

/-- R247: of an item's accesses `(addr, n)`, in the pseudocode's order, the address of the first not admitted. -/
def firstUnadmitted (p : Params) : List (Nat × Nat) → Option Nat
  | [] => none
  | (a, n) :: rest => if p.admits a n then firstUnadmitted p rest else some a

/-- What one work item does, once its accesses are known. -/
inductive ItemEffect where
  /-- `skip` of R13: no access, no mark. -/
  | skip
  /-- Write these bytes at this address. -/
  | store (addr : Nat) (bytes : List Byte)
  /-- `raise Fault(MEM_UNADMITTED)` for the access at this address (R244). -/
  | unadmitted (addr : Nat)
  deriving DecidableEq, Repr

/-- R203, R244: an item that makes `accesses` (reads first, its write last) and then writes `bytes` at `addr`; the
first access not admitted makes it a fault and nothing is written. -/
def guardedStore (p : Params) (accesses : List (Nat × Nat)) (addr : Nat) (bytes : List Byte) : ItemEffect :=
  match firstUnadmitted p accesses with
  | some a => .unadmitted a
  | none => .store addr bytes

/-- R53: the four bytes of a word in memory order, least significant first. -/
def wordBytes (v : Word) : List Byte :=
  [v.extractLsb' 0 8, v.extractLsb' 8 8, v.extractLsb' 16 8, v.extractLsb' 24 8]

end Sys2Proof
end

