-- ==== Sys2Proof/Machine/Checks.lean ====
section
/-! DEFINITION. Machine/Checks.lean: the checks 5 to 10 a doorbell makes of a decoded command (60_exceptions.md R231,
R236 to R241). Each answers whether the check FAILS. -/

namespace Sys2Proof

/-- R236 NEGATIVE_PARAM. -/
def hasNegativeParam (i : Instr) : Bool := i.i32Operands.any isNegative

/-- R237 GRID_NOT_MULT32 (STEP and RENDER). -/
def hasGridNotMult32 (i : Instr) : Bool :=
  match i.gridShape with
  | none => false
  | some (g, _) => decide (natOfI32 g % 32 ≠ 0)

/-- R238 WIDTH_MISMATCH (STEP and RENDER). -/
def hasWidthMismatch (i : Instr) : Bool :=
  match i.gridShape with
  | none => false
  | some (g, w) => decide (natOfI32 w ≠ natOfI32 g / 32)

/-- R239 MISALIGNED_WORD_BUFFER. -/
def hasMisalignedWordBuffer (i : Instr) : Bool := i.wordBuffers.any fun a => decide (a.toNat % 4 ≠ 0)

/-- One footprint ends past the address space; an empty one never does (R240). -/
def ByteRange.overflows (r : ByteRange) : Bool := r.nonempty && decide (addressSpace < r.hi)

/-- R240 FOOTPRINT_OVERFLOW. -/
def hasFootprintOverflow (i : Instr) : Bool := i.readFootprint.overflows || i.writeFootprint.overflows

/-- R241 BUFFER_OVERLAP; INIT reads nothing, so its empty `RF` shares no byte. -/
def hasBufferOverlap (i : Instr) : Bool := i.readFootprint.overlaps i.writeFootprint

/-- R231, checks 5 to 10 in their order: the code of the first that fails. -/
def submissionCheck (i : Instr) : Option RefusalCode :=
  if hasNegativeParam i then some .negativeParam
  else if hasGridNotMult32 i then some .gridNotMult32
  else if hasWidthMismatch i then some .widthMismatch
  else if hasMisalignedWordBuffer i then some .misalignedWordBuffer
  else if hasFootprintOverflow i then some .footprintOverflow
  else if hasBufferOverlap i then some .bufferOverlap
  else none

end Sys2Proof
end

