-- ==== Sys2Proof/WellFormed.lean ====
section
/-! DEFINITION. WellFormed.lean: a command is well-formed when the doorbell's checks 5 to 10 accept it (R231). -/

namespace Sys2Proof

/-- No check of R236 to R241 fails. The checks themselves stand in Machine/Checks.lean. -/
def Instr.WellFormed (i : Instr) : Bool := (submissionCheck i).isNone

end Sys2Proof
end

