-- ==== Sys2Proof/Decode.lean ====
section
/-! DEFINITION. Decode.lean: the 16-word descriptor (30_encoding.md R83), its decoder (R84 to R88) and its encoder. -/

namespace Sys2Proof

/-- R83: a command is 16 words of 32 bits. -/
abbrev Descriptor := Vector Word 16

/-- The descriptor whose word `k` is `f k`. -/
def descriptorOf (f : Fin 16 → Word) : Descriptor :=
  #v[f 0, f 1, f 2, f 3, f 4, f 5, f 6, f 7, f 8, f 9, f 10, f 11, f 12, f 13, f 14, f 15]

/-- R83, column INIT: the words reserved 0 besides `DESC[0][31:2]`. -/
def reservedOfInit : List (Fin 16) := [3, 4, 6, 8, 9, 10, 13, 14, 15]

/-- R83, column STEP: the words reserved 0 besides `DESC[0][31:2]`. -/
def reservedOfStep : List (Fin 16) := [5, 8, 9, 10, 13, 14, 15]

/-- R83, column RENDER: the words reserved 0 besides `DESC[0][31:2]`. -/
def reservedOfRender : List (Fin 16) := [5, 11, 13, 14, 15]

/-- R88: every listed word is zero. -/
def wordsZero (d : Descriptor) (ks : List (Fin 16)) : Bool := ks.all fun k => decide (d[k] = 0)

/-- `i`, unless a word reserved for its opcode is not zero (R235). -/
def unlessReserved (d : Descriptor) (ks : List (Fin 16)) (i : Instr) : Except RefusalCode Instr :=
  if wordsZero d ks then .ok i else .error .reservedNonzero

/-- R84, R87, R88: the command a descriptor spells, or the refusal code of check 3 or 4 of R231. -/
def decode (d : Descriptor) : Except RefusalCode Instr :=
  if d[0] = 0#32 then
    unlessReserved d reservedOfInit (.init (joinAddr d[2] d[1]) d[5] d[7] d[11] d[12])
  else if d[0] = 1#32 then
    unlessReserved d reservedOfStep (.step (joinAddr d[2] d[1]) (joinAddr d[4] d[3]) d[6] d[7] d[11] d[12])
  else if d[0] = 2#32 then
    unlessReserved d reservedOfRender
      (.render (joinAddr d[2] d[1]) (joinAddr d[4] d[3]) d[6] d[7] d[8] d[9] d[10] d[12])
  else .error .illegalOpcode

/-- R83, R91: the 16 words of a command, every reserved field 0. -/
def encode : Instr → Descriptor
  | .init grid seed w ex ey =>
    #v[0, addrLo grid, addrHi grid, 0, 0, seed, 0, w, 0, 0, 0, ex, ey, 0, 0, 0]
  | .step cur nxt g w ex ey =>
    #v[1, addrLo cur, addrHi cur, addrLo nxt, addrHi nxt, 0, g, w, 0, 0, 0, ex, ey, 0, 0, 0]
  | .render grid out g w xo yo width ey =>
    #v[2, addrLo grid, addrHi grid, addrLo out, addrHi out, 0, g, w, xo, yo, width, 0, ey, 0, 0, 0]

/-- The bits of `w` from bit `32 * k` on. -/
def dropWords : Nat → Nat → Nat
  | 0, w => w
  | k + 1, w => dropWords k (w / 2 ^ 32)

/-- The descriptor whose bits are `w`, bit 0 being bit 0 of `DESC[0]` and word `k` starting at bit `32 * k`; every bit
from `nbits` on is 0. -/
def layOut (nbits w : Nat) : Descriptor :=
  descriptorOf fun k => BitVec.ofNat 32 (dropWords k.val w % 2 ^ min 32 (nbits - 32 * k.val))

/-- The command the decoder reads from a descriptor whose bits are `w`, numbered as the opcode table numbers them. -/
def decodeTableWord (nbits w : Nat) : Option Instr :=
  match decode (layOut nbits w) with
  | .ok i => some i
  | .error _ => none

end Sys2Proof
end

