-- ==== Sys2Proof/Machine/State.lean ====
section
/-! DEFINITION. Machine/State.lean: the state record of 10_state.md R20, the host's actions (R215), the fault and
refusal records (R33), and the state after reset (R34, R263). -/

namespace Sys2Proof.Machine

/-- A register the host can reach (R24). -/
inductive Reg where
  /-- `DESC[i]` at offset 4*i. -/
  | desc (i : Fin 16)
  /-- `DOORBELL` at offset 0x40. -/
  | doorbell
  /-- `STATUS` at offset 0x44. -/
  | status
  deriving DecidableEq, Repr

/-- What a descriptor register holds: a word, or the spec's own value `unwritten` (R20, R25, R34; log 21). -/
inductive DescReg where
  | unwritten
  | written (v : Word)
  deriving DecidableEq, Repr

/-- The host's actions, the rows of R215. Register accesses name a host address, `REG_BASE` plus the offset, and a
width in bits; data-memory accesses may have any width. -/
inductive HostAction where
  /-- H1, H3, H4, H6: write a register. -/
  | writeReg (addr : Nat) (bits : Nat) (v : Word)
  /-- H2, H5, H6: read a register. -/
  | readReg (addr : Nat) (bits : Nat)
  /-- H7: write these bytes at consecutive addresses of the data memory. -/
  | writeMem (addr : Nat) (bytes : List Byte)
  /-- H8: read `n` bytes of the data memory. -/
  | readMem (addr : Nat) (n : Nat)
  /-- H9: reset. -/
  | reset
  deriving DecidableEq, Repr

/-- A coming action of the host. It lands after `wait` more work items have been performed, or as soon as no command is
active: between two items the host may move at any point (R204; log 3). -/
structure Input where
  wait : Nat
  action : HostAction
  deriving DecidableEq, Repr

/-- What the host got back from its last read (R215, last column; log 6). -/
inductive Reply where
  | nothing
  | word (v : Word)
  | bytes (bs : List Byte)
  deriving DecidableEq, Repr

/-- The fault records (R243): the code, the command, and what caused it. -/
inductive Fault where
  /-- MEM_UNADMITTED, fault 1 (R244): raised by a work item of `cmd` whose first access not admitted is at `addr`.
  Safe: the model stops where the source leaves the access undefined. -/
  | memUnadmitted (cmd : Instr) (item : Item) (addr : Nat)
  /-- HOST_RACE, fault 2 (R245): raised by the host action `write` inside a footprint of the active `cmd`.
  Safe: the model stops where the source leaves the race undefined. -/
  | hostRace (cmd : Instr) (write : HostAction)
  deriving DecidableEq, Repr

/-- What a refusal is the refusal of (R33: "the command or access that caused it"; log 15). -/
inductive Cause where
  /-- A host access. -/
  | access (a : HostAction)
  /-- A decoded command, at its submission. -/
  | command (i : Instr)
  deriving DecidableEq, Repr

/-- The refusal records (R230). -/
inductive Refusal where
  /-- One of the codes 1 to 11 of R231 and R242: raised by a doorbell, a submission or a register access. Safe: the
  model stops where the spec gives the action no meaning. -/
  | rejected (code : RefusalCode) (cause : Cause)
  /-- A host data-memory access that reaches past the 64-bit address space, which no row of R215 covers: raised by
  `writeMem` and `readMem`. Safe (log 11). -/
  | beyondMemory (a : HostAction)
  /-- An instruction with no meaning yet: raised by no arm of this model. Safe. -/
  | notModelled (mnemonic : String)
  deriving DecidableEq, Repr

/-- The data memory (R20 `mem`, R50): the listed bytes, by address. -/
abbrev Mem := List Host.Cell

/-- What a byte nothing has written reads as: DESIGN CHOICE, unsafe (I7; log 7). -/
def unlistedByte : Byte := 0

/-- The canonical form, from address `lo` on: addresses strictly rising and inside the address space, and no entry
equal to what an unlisted address reads as. -/
def Mem.wfFrom (lo : Nat) : Mem → Bool
  | [] => true
  | (a, b) :: m => decide (lo ≤ a) && decide (a < addressSpace) && decide (b ≠ unlistedByte) && Mem.wfFrom (a + 1) m

/-- The memory is in its canonical form. -/
def Mem.wf (m : Mem) : Bool := Mem.wfFrom 0 m

/-- The state of the block (R20), the open parameters (R9), and the model's own carriers of the outside's choices. -/
structure State where
  /-- `mem`: the data memory (R32, R50). -/
  mem : Mem
  /-- `desc[0..15]`: the descriptor registers (R25). -/
  desc : Vector DescReg 16
  /-- `busy`: STATUS.BUSY (R27). -/
  busy : Bool
  /-- `active`: the command being executed (R29). -/
  active : Option Instr
  /-- `pending`: the work items of `active` not yet performed (R29), without repeats. -/
  pending : List Item
  /-- `faulted`: the sticky fault mark (R33). -/
  faulted : Option Fault
  /-- `refused`: the sticky refusal mark (R33). -/
  refused : Option Refusal
  /-- The open parameters of R9; no step changes them (log 8). -/
  params : Params
  /-- The MODEL's own: the coming actions of the host (log 3). -/
  inputs : List Input
  /-- The MODEL's own: which pending item each coming item step performs (log 4). -/
  picks : List Nat
  /-- The MODEL's own: the counter of free values drawn (logs 4 and 5). -/
  draws : Nat
  /-- The MODEL's own: what the host's last read returned (log 6). -/
  reply : Reply
  /-- The MODEL's own: the data memory as it was at the last accepted doorbell. Only a host read that races with a command
  looks at it, for the old value of a byte (R217, D19; log 5). -/
  before : Mem
  deriving DecidableEq, Repr

/-- The parameters `State.reset` is launched with: the defaults of R9, and for the two OPEN ones DESIGN CHOICES
(logs 8 and 9). -/
def launchParams : Params where
  regBase := 0
  admitted := [⟨0, addressSpace⟩]
  prngChain := .stateChain
  seedMix := .xorMul

/-- R34, R263: the state right after reset, at launch. -/
def State.reset : State where
  mem := []
  desc := Vector.replicate 16 .unwritten
  busy := false
  active := none
  pending := []
  faulted := none
  refused := none
  params := launchParams
  inputs := []
  picks := []
  draws := 0
  reply := .nothing
  before := []

end Sys2Proof.Machine
end

