-- ==== Sys2Proof/Machine/Ops.lean ====
section
/-! DEFINITION. Machine/Ops.lean: the named operations over memory, registers, marks and the command state. -/

namespace Sys2Proof.Machine

/-! ### Memory (R50, R53) -/

/-- The byte at address `a`. -/
def Mem.read : Mem → Nat → Byte
  | [], _ => unlistedByte
  | (k, b) :: m, a => if a = k then b else Mem.read m a

/-- Memory with `b` at address `a`, in canonical form: writing what an unlisted byte reads as removes the entry. -/
def Mem.write : Mem → Nat → Byte → Mem
  | [], a, b => if b = unlistedByte then [] else [(a, b)]
  | (k, c) :: m, a, b =>
    if a < k then (if b = unlistedByte then (k, c) :: m else (a, b) :: (k, c) :: m)
    else if a = k then (if b = unlistedByte then m else (a, b) :: m)
    else (k, c) :: Mem.write m a b

/-- Memory with `bytes` at the consecutive addresses from `a` on. -/
def Mem.writeBytes : Mem → Nat → List Byte → Mem
  | m, _, [] => m
  | m, a, b :: bs => Mem.writeBytes (m.write a b) (a + 1) bs

/-- R53 `MemRead(addr, 4)`: the little-endian word at `a`. -/
def Mem.readWord (m : Mem) (a : Nat) : Word := m.read (a + 3) ++ m.read (a + 2) ++ m.read (a + 1) ++ m.read a

/-! ### Marks: what a refusal and a fault do (R230, R243) -/

/-- R230: the action is refused: the sticky mark is set and nothing else changes. The first record stays (R33). -/
def State.refuse (s : State) (r : Refusal) : State := { s with refused := some (s.refused.getD r) }

/-- R243: a fault is recorded: the sticky mark is set and nothing else changes. The first record stays (R33). -/
def State.markFault (s : State) (f : Fault) : State := { s with faulted := some (s.faulted.getD f) }

/-- R20, R33: a state with either mark set has no further steps. -/
def State.marked (s : State) : Bool := s.faulted.isSome || s.refused.isSome

/-! ### Registers (R25) -/

/-- A host write of `DESC[i]`. -/
def State.writeDesc (s : State) (i : Fin 16) (v : Word) : State := { s with desc := s.desc.set i (.written v) }

/-- The descriptor register has been written since reset. -/
def DescReg.isWritten : DescReg → Bool
  | .unwritten => false
  | .written _ => true

/-- The word a written register holds. Asked of a written register only. -/
def DescReg.word : DescReg → Word
  | .unwritten => 0
  | .written v => v

/-- R201: the doorbell's snapshot of `DESC[0..15]`; none if any of them is unwritten (R233). -/
def snapshot (regs : Vector DescReg 16) : Option Descriptor :=
  if regs.toList.all DescReg.isWritten then some (descriptorOf fun k => regs[k].word) else none

/-- The sixteen registers after a write of every word of a descriptor. -/
def writtenRegs (d : Descriptor) : Vector DescReg 16 :=
  #v[.written d[0], .written d[1], .written d[2], .written d[3], .written d[4], .written d[5], .written d[6],
    .written d[7], .written d[8], .written d[9], .written d[10], .written d[11], .written d[12], .written d[13],
    .written d[14], .written d[15]]

/-! ### The reset event (R260) -/

/-- R260, R34: every register and the command state take their reset values; memory and marks stay (R262). -/
def State.resetBlock (s : State) : State :=
  { s with desc := Vector.replicate 16 .unwritten, busy := false, active := none, pending := [] }

/-! ### The life of a command -/

/-- R206: with `rest` still to perform, the command goes on, or is complete when `rest` is empty. -/
def State.withPending (s : State) (rest : List Item) : State :=
  { s with
    pending := rest
    active := if rest.isEmpty then none else s.active
    busy := if rest.isEmpty then false else s.busy }

/-- R201: the accepted doorbell starts command `i`; one with an empty index space or an empty grid completes at once
(R93, R206). The memory the command starts from is kept as the old one (D19; log 5). -/
def State.start (s : State) (i : Instr) : State :=
  State.withPending { s with active := some i, busy := true, before := s.mem } i.itemsAtStart

/-- The number that picks the next work item: scripted, or free (R204; log 4). -/
def State.pickNumber (s : State) : Nat :=
  match s.picks with
  | k :: _ => k
  | [] => Config.freePick s.draws

/-- One of the pending items, the `k`-th modulo their number; the only one needs no choice. -/
def pickItem (k : Nat) : List Item → Option Item
  | [] => none
  | [p] => some p
  | p :: q :: ps => (p :: q :: ps)[k % (ps.length + 2)]?

/-- R204: the pending work item that takes the next step. -/
def State.nextItem (s : State) : Option Item := pickItem s.pickNumber s.pending

/-- The choice of the next item has been used up. -/
def State.usePick (s : State) : State :=
  { s with picks := s.picks.tail, draws := if s.picks.isEmpty then s.draws + 1 else s.draws }

/-- R203: the performed item leaves `pending`; with the last one the command is complete (R206). -/
def State.retire (s : State) (p : Item) : State := State.withPending s (s.pending.erase p)

/-- The memory with an item's bytes written. -/
def State.storeBytes (s : State) (a : Nat) (bytes : List Byte) : State := { s with mem := s.mem.writeBytes a bytes }

/-- R203, R244: the effect of the performed item `p` on the state. A fault leaves everything but the mark (log 13). -/
def State.finishItem (s : State) (i : Instr) (p : Item) : ItemEffect → State
  | .skip => s.usePick.retire p
  | .store a bytes => (s.usePick.retire p).storeBytes a bytes
  | .unadmitted a => s.markFault (.memUnadmitted i p a)

/-- R203: one work item of the active command `i` takes its step. With none pending, which no run reaches, the command
is complete (log 19). -/
def performItem (i : Instr) (effect : Item → ItemEffect) (s : State) : Host.Outcome State Fault Refusal :=
  match s.nextItem with
  | none => .next (s.withPending [])
  | some p => .next (s.finishItem i p (effect p))

/-- R201, checks 5 to 10: the decoded command `i` is submitted. Submission while another command runs is refused
(R232). -/
def submit (i : Instr) (s : State) : Host.Outcome State Fault Refusal :=
  match s.active with
  | some _ => .next (s.refuse (.rejected .doorbellWhileBusy (.command i)))
  | none =>
    match submissionCheck i with
    | some code => .next (s.refuse (.rejected code (.command i)))
    | none => .next (s.start i)

/-- One atomic step of command `i`: while it is the active command, one of its work items (R203); before, its submission
(R201). `effect` is the command's own item (log 1). -/
def commandStep (i : Instr) (effect : Item → ItemEffect) (s : State) : Host.Outcome State Fault Refusal :=
  if s.active = some i then performItem i effect s else submit i s

end Sys2Proof.Machine
end

