-- ==== Sys2Proof/Machine/Init.lean ====
section
/-! DEFINITION. Machine/Init.lean: INIT, the grid initializer (40_generator_init.md R118 to R123). -/

namespace Sys2Proof.Machine

/-- R118, R120: the address an in-range INIT item at `(x, y)` writes. -/
def initStoreAddr (grid : Addr) (w : Word) (it : Item) : Nat :=
  wordAddr grid.toNat (wordIndex (natOfI32 w) it.2 it.1)

/-- R118 `INIT_item`: the word-column guard (R119), no row guard (R120), one word written. -/
def initItem (p : Params) (grid : Addr) (seed w : Word) (it : Item) : ItemEffect :=
  if natOfI32 w ≤ it.1 then .skip
  else
    let a := initStoreAddr grid w it
    guardedStore p [(a, 4)] a (wordBytes (initWord p it.1 it.2 seed))

/-- INIT (R118). -/
def execInit (grid : Addr) (seed w ex ey : Word) (s : State) : Host.Outcome State Fault Refusal :=
  commandStep (.init grid seed w ex ey) (initItem s.params grid seed w) s

end Sys2Proof.Machine
end

