-- ==== Sys2Proof/Machine/Render.lean ====
section
/-! DEFINITION. Machine/Render.lean: RENDER, the region unpacker (42_render.md R180 to R187). -/

namespace Sys2Proof.Machine

/-- R185: the address an in-grid RENDER item at `(x, y)` writes. -/
def renderStoreAddr (out : Addr) (width : Word) (it : Item) : Nat :=
  pixelAddr out.toNat (natOfI32 width) it.1 it.2

/-- R184: the address of the word owning column `gx` of row `gy`. -/
def renderReadAddr (grid : Addr) (w : Word) (gx gy : Nat) : Nat :=
  wordAddr grid.toNat (wordIndex (natOfI32 w) gy (gx / 32))

/-- R82, R185: the byte of a pixel. -/
def pixelByte (alive : Bool) : Byte := if alive then 255#8 else 0#8

/-- R184: bit `gx % 32` of the owning word. -/
def pixelBit (wd : Word) (gx : Nat) : Bool := decide ((wd >>> (gx % 32)) &&& 1#32 = 1#32)

/-- R180 `RENDER_item`: absolute coordinates (R182), edge skip without wrap (R183), one read, one byte written. -/
def renderItem (p : Params) (mem : Mem) (grid out : Addr) (g w xo yo width : Word) (it : Item) : ItemEffect :=
  let gx := it.1 + natOfI32 xo
  let gy := it.2 + natOfI32 yo
  if natOfI32 g ≤ gx ∨ natOfI32 g ≤ gy then .skip
  else
    let r := renderReadAddr grid w gx gy
    let a := renderStoreAddr out width it
    guardedStore p [(r, 4), (a, 1)] a [pixelByte (pixelBit (mem.readWord r) gx)]

/-- RENDER (R180). -/
def execRender (grid out : Addr) (g w xo yo width ey : Word) (s : State) : Host.Outcome State Fault Refusal :=
  commandStep (.render grid out g w xo yo width ey) (renderItem s.params s.mem grid out g w xo yo width) s

end Sys2Proof.Machine
end

