-- ==== Sys2Proof/Machine/Stepper.lean ====
section
/-! DEFINITION. Machine/Stepper.lean: STEP, the generation stepper (41_stepper.md R140 to R151). -/

namespace Sys2Proof.Machine

/-! ### Toroidal wrap (R142) -/

/-- R142: the index before `i` on a ring of `n`. -/
def ringPrev (n i : Nat) : Nat := if i = 0 then n - 1 else i - 1

/-- R142: the index after `i` on a ring of `n`. -/
def ringNext (n i : Nat) : Nat := if i = n - 1 then 0 else i + 1

/-! ### The nine-word fetch (R145) -/

/-- R30: the nine words around the centre word `m`. -/
structure Hood where
  tl : Word
  t : Word
  tr : Word
  ml : Word
  m : Word
  mr : Word
  bl : Word
  bm : Word
  br : Word
  deriving DecidableEq, Repr

/-- The address of the word at row `y`, word-column `x` of the grid at `base` (R52). -/
def gridWordAddr (base W y x : Nat) : Nat := wordAddr base (wordIndex W y x)

/-- R140, R145: the nine addresses in the pseudocode's order. -/
def hoodAddrs (base G W x y : Nat) : List Nat :=
  [gridWordAddr base W (ringPrev G y) (ringPrev W x), gridWordAddr base W (ringPrev G y) x,
    gridWordAddr base W (ringPrev G y) (ringNext W x),
    gridWordAddr base W y (ringPrev W x), gridWordAddr base W y x, gridWordAddr base W y (ringNext W x),
    gridWordAddr base W (ringNext G y) (ringPrev W x), gridWordAddr base W (ringNext G y) x,
    gridWordAddr base W (ringNext G y) (ringNext W x)]

/-- R145: the nine words read. -/
def readHood (mem : Mem) (base G W x y : Nat) : Hood where
  tl := mem.readWord (gridWordAddr base W (ringPrev G y) (ringPrev W x))
  t := mem.readWord (gridWordAddr base W (ringPrev G y) x)
  tr := mem.readWord (gridWordAddr base W (ringPrev G y) (ringNext W x))
  ml := mem.readWord (gridWordAddr base W y (ringPrev W x))
  m := mem.readWord (gridWordAddr base W y x)
  mr := mem.readWord (gridWordAddr base W y (ringNext W x))
  bl := mem.readWord (gridWordAddr base W (ringNext G y) (ringPrev W x))
  bm := mem.readWord (gridWordAddr base W (ringNext G y) x)
  br := mem.readWord (gridWordAddr base W (ringNext G y) (ringNext W x))

/-! ### Neighbour planes (R143, R144, R146) -/

/-- R143: the column to the west of each lane, borrowing bit 31 of the left word. -/
def westPlane (c l : Word) : Word := (c <<< 1) ||| (l >>> 31)

/-- R144: the column to the east of each lane, borrowing bit 0 of the right word. -/
def eastPlane (c r : Word) : Word := (c >>> 1) ||| (r <<< 31)

/-- R146, R148: the eight planes in the order nw, n, ne, w, e, sw, s, se. -/
def planes (h : Hood) : List Word :=
  [westPlane h.t h.tl, h.t, eastPlane h.t h.tr, westPlane h.m h.ml, eastPlane h.m h.mr,
    westPlane h.bm h.bl, h.bm, eastPlane h.bm h.br]

/-! ### The ripple accumulator (R147, R148) -/

/-- R30: the three accumulator planes: ones, twos and fours. -/
structure Acc where
  a : Word
  b : Word
  c : Word
  deriving DecidableEq, Repr

/-- R147: add one plane; the carry out of `c` is discarded. -/
def fullAdd (r : Acc) (p : Word) : Acc where
  a := r.a ^^^ p
  b := r.b ^^^ (r.a &&& p)
  c := r.c ^^^ (r.b &&& (r.a &&& p))

/-- R148: the accumulator after adding the planes in turn from zero. -/
def ripple (ps : List Word) : Acc := ps.foldl fullAdd ⟨0#32, 0#32, 0#32⟩

/-- R150: the life rule on 32 lanes; `m` is the centre word. -/
def lifeRule (r : Acc) (m : Word) : Word :=
  let two := ~~~r.c &&& r.b &&& ~~~r.a
  let three := ~~~r.c &&& r.b &&& r.a
  three ||| (two &&& m)

/-- R146 to R150: the next generation of the centre word. -/
def nextWord (h : Hood) : Word := lifeRule (ripple (planes h)) h.m

/-! ### The item and the command -/

/-- R151: the address an in-range STEP item at `(x, y)` writes. -/
def stepStoreAddr (nxt : Addr) (w : Word) (it : Item) : Nat := gridWordAddr nxt.toNat (natOfI32 w) it.2 it.1

/-- R140 `STEP_item`: the bounds guard (R141), nine reads, then one write. -/
def stepItem (p : Params) (mem : Mem) (cur nxt : Addr) (g w : Word) (it : Item) : ItemEffect :=
  if natOfI32 g ≤ it.2 ∨ natOfI32 w ≤ it.1 then .skip
  else
    let a := stepStoreAddr nxt w it
    let reads := hoodAddrs cur.toNat (natOfI32 g) (natOfI32 w) it.1 it.2
    guardedStore p (reads.map (fun r => (r, 4)) ++ [(a, 4)]) a
      (wordBytes (nextWord (readHood mem cur.toNat (natOfI32 g) (natOfI32 w) it.1 it.2)))

/-- STEP (R140). -/
def execStep (cur nxt : Addr) (g w ex ey : Word) (s : State) : Host.Outcome State Fault Refusal :=
  commandStep (.step cur nxt g w ex ey) (stepItem s.params s.mem cur nxt g w) s

end Sys2Proof.Machine
end

