-- ==== Sys2Proof/Machine/Dispatch.lean ====
section
/-! DEFINITION. Machine/Dispatch.lean: one arm per command. -/

namespace Sys2Proof.Machine

def exec (i : Instr) (s : State) : Host.Outcome State Fault Refusal :=
  match i with
  | .init grid seed w ex ey => Sys2Proof.Machine.execInit grid seed w ex ey s
  | .step cur nxt g w ex ey => Sys2Proof.Machine.execStep cur nxt g w ex ey s
  | .render grid out g w xo yo width ey => Sys2Proof.Machine.execRender grid out g w xo yo width ey s

end Sys2Proof.Machine
end

