-- ==== Sys2Proof/Machine/Flags.lean ====
section
/-! DEFINITION. Machine/Flags.lean: the one status the host can read (10_state.md R27). The block has no flags: no
operation sets a carry, overflow or zero flag (R23). -/

namespace Sys2Proof.Machine

/-- R27: the value of STATUS: bit 0 is BUSY, every other bit reads 0. -/
def State.statusWord (s : State) : Word := if s.busy then 1#32 else 0#32

/-- R26: a read of DOORBELL returns 0. -/
def doorbellReadValue : Word := 0#32

end Sys2Proof.Machine
end

