-- ==== Sys2Proof/Machine/HostPort.lean ====
section
/-! DEFINITION. Machine/HostPort.lean: the host's actions, row by row of R215, and whose move is next (R204). -/

namespace Sys2Proof.Machine

/-! ### The register block (R24, R242) -/

/-- R24: the host address of a register. -/
def regAddr (p : Params) : Reg → Nat
  | .desc i => p.regBase + 4 * i.val
  | .doorbell => p.regBase + 0x40
  | .status => p.regBase + 0x44

/-- R24, R242: the register a host access reaches: 32 bits wide, at one of the offsets 0x00, 0x04, ..., 0x44; any other
access reaches none (log 14). -/
def regAt (p : Params) (addr bits : Nat) : Option Reg :=
  if bits ≠ 32 ∨ addr < p.regBase then none
  else
    let off := addr - p.regBase
    if off = 0x40 then some .doorbell
    else if off = 0x44 then some .status
    else if h : off / 4 < 16 then (if off % 4 = 0 then some (.desc ⟨off / 4, h⟩) else none)
    else none

/-- The value a host read returns. -/
def State.answer (s : State) (r : Reply) : State := { s with reply := r }

/-- The refusal record of a host access. -/
def rejectAccess (code : RefusalCode) (a : HostAction) (s : State) : Host.Outcome State Fault Refusal :=
  .next (s.refuse (.rejected code (.access a)))

/-- R201: the doorbell, with its checks in R231's order; checks 5 to 10 are made by the command itself (`submit`). `a` is
the host action that rang it. -/
def doorbell (a : HostAction) (s : State) : Host.Outcome State Fault Refusal :=
  if s.busy then rejectAccess .doorbellWhileBusy a s
  else
    match snapshot s.desc with
    | none => rejectAccess .descUnwritten a s
    | some d =>
      match decode d with
      | .error code => rejectAccess code a s
      | .ok i => exec i s

/-- H1, H3, H4, H6: a register write. A write of STATUS is ignored (R27). -/
def hostWriteReg (addr bits : Nat) (v : Word) (s : State) : Host.Outcome State Fault Refusal :=
  match regAt s.params addr bits with
  | none => rejectAccess .registerAccess (.writeReg addr bits v) s
  | some (.desc i) => .next (s.writeDesc i v)
  | some .doorbell => if v.getLsbD 0 then doorbell (.writeReg addr bits v) s else .next s
  | some .status => .next s

/-- H2, H5, H6: a register read. -/
def hostReadReg (addr bits : Nat) (s : State) : Host.Outcome State Fault Refusal :=
  match regAt s.params addr bits with
  | none => rejectAccess .registerAccess (.readReg addr bits) s
  | some (.desc i) =>
    match s.desc[i] with
    | .unwritten => rejectAccess .descUnwritten (.readReg addr bits) s
    | .written v => .next (s.answer (.word v))
  | some .doorbell => .next (s.answer (.word doorbellReadValue))
  | some .status => .next (s.answer (.word s.statusWord))

/-! ### Host accesses of the data memory (R216, R217) -/

/-- The access lies inside the 64-bit address space (R50; log 11). -/
def inMemory (addr n : Nat) : Bool := decide (addr + n ≤ addressSpace)

/-- The active command, when one of the `n` bytes at `addr` lies inside its read or write footprint (R216). -/
def State.racedBy (s : State) (addr n : Nat) : Option Instr :=
  match s.active with
  | none => none
  | some i =>
    if s.busy && (List.range n).any fun k => i.readFootprint.holds (addr + k) || i.writeFootprint.holds (addr + k)
    then some i else none

/-- H7, H7': a data-memory write. -/
def hostWriteMem (addr : Nat) (bytes : List Byte) (s : State) : Host.Outcome State Fault Refusal :=
  if inMemory addr bytes.length then
    match s.racedBy addr bytes.length with
    | some i => .next (s.markFault (.hostRace i (.writeMem addr bytes)))
    | none => .next (s.storeBytes addr bytes)
  else .next (s.refuse (.beyondMemory (.writeMem addr bytes)))

/-- R217: a host read of this byte is drawn: a command runs and the byte lies inside its write footprint. -/
def State.drawnAt (s : State) (a : Nat) : Bool :=
  s.busy && (match s.active with
    | none => false
    | some i => i.writeFootprint.holds a)

/-- R217, D19: the byte at `a` that the `k`-th draw returns: its old value, or the one an item performed so far wrote,
as the free value says (log 5). Where no item has written it yet, the two are one. -/
def State.racedByte (s : State) (k a : Nat) : Byte :=
  if Config.raceReadsOld k then s.before.read a else s.mem.read a

/-- R217: the `n` bytes a host read returns: the memory's, but a fresh draw for each byte that is drawn (log 5). -/
def State.hostBytes (s : State) (addr n : Nat) : List Byte :=
  (List.range n).map fun k =>
    if s.drawnAt (addr + k) then s.racedByte (s.draws + k) (addr + k) else s.mem.read (addr + k)

/-- The draw counter moves past a read that drew. -/
def State.useDraws (s : State) (addr n : Nat) : State :=
  { s with draws := if (List.range n).any (fun k => s.drawnAt (addr + k)) then s.draws + n else s.draws }

/-- H8, H8': a data-memory read. -/
def hostReadMem (addr n : Nat) (s : State) : Host.Outcome State Fault Refusal :=
  if inMemory addr n then .next ((s.useDraws addr n).answer (.bytes (s.hostBytes addr n)))
  else .next (s.refuse (.beyondMemory (.readMem addr n)))

/-! ### Whose move it is -/

/-- One action of the host, an atomic step (R200, R215). -/
def hostStep (a : HostAction) (s : State) : Host.Outcome State Fault Refusal :=
  match a with
  | .writeReg addr bits v => hostWriteReg addr bits v s
  | .readReg addr bits => hostReadReg addr bits s
  | .writeMem addr bytes => hostWriteMem addr bytes s
  | .readMem addr n => hostReadMem addr n s
  | .reset => .next s.resetBlock

/-- One step of the block: an item of the active command (R203), or nothing when none is active (R257; log 20). -/
def blockStep (s : State) : Host.Outcome State Fault Refusal :=
  match s.active with
  | some i => exec i s
  | none => .next s

/-- The coming host actions, the first of them waiting for one item less. -/
def State.setInputs (s : State) (l : List Input) : State := { s with inputs := l }

/-- R204: the next step of an unmarked state. The host moves when its next action is due, or when no command is active;
else a work item moves. -/
def advance (s : State) : Host.Outcome State Fault Refusal :=
  match s.inputs with
  | [] => blockStep s
  | ⟨0, a⟩ :: rest => hostStep a (s.setInputs rest)
  | ⟨n + 1, a⟩ :: rest =>
    match s.active with
    | none => hostStep a (s.setInputs rest)
    | some i => exec i (s.setInputs (⟨n, a⟩ :: rest))

/-- The host action that rings the doorbell. -/
def ringDoorbell (p : Params) : HostAction := .writeReg (regAddr p .doorbell) 32 1#32

/-- `s` with a descriptor written, no command running, no mark, and the doorbell as the next action (log 16). -/
def State.presenting (s : State) (d : Descriptor) : State :=
  { s with
    desc := writtenRegs d
    busy := false
    active := none
    pending := []
    faulted := none
    refused := none
    inputs := ⟨0, ringDoorbell s.params⟩ :: s.inputs }

end Sys2Proof.Machine
end

