-- ==== Sys2Proof/Machine/Step.lean ====
section
/-! DEFINITION. Machine/Step.lean: one step of the machine. -/

namespace Sys2Proof.Machine

/-- One step. A state with a mark set has no further steps, reset included (R33, R262): it answers the record. Any other
state moves as `advance` says (log 2). -/
def step (s : State) : Host.Outcome State Fault Refusal :=
  match s.faulted with
  | some f => .fault f
  | none =>
    match s.refused with
    | some r => .refused r
    | none => advance s

/-- `s` with the command whose descriptor's bits are `w` written in DESC and its doorbell as the very next step
(log 16). -/
def State.withFetchWord (s : State) (nbits w : Nat) : State := s.presenting (layOut nbits w)

end Sys2Proof.Machine
end

