-- ==== Sys2Proof/Machine/HostPrograms.lean ====
section
/-! DEFINITION. Machine/HostPrograms.lean: the host-level pseudo-operations of 30_encoding.md R92, as lists of coming host
actions. They add nothing to the hardware. -/

namespace Sys2Proof.Machine

/-- The host write of `DESC[k]`. -/
def descWrite (p : Params) (d : Descriptor) (k : Fin 16) : Input := ⟨0, .writeReg (regAddr p (.desc k)) 32 d[k]⟩

/-- The 16 `DESC` writes of a command line, then the doorbell (R91). -/
def submitProgram (p : Params) (i : Instr) : List Input :=
  (List.finRange 16).map (descWrite p (encode i)) ++ [⟨0, ringDoorbell p⟩]

/-- `WAIT`: the read of STATUS that ends the polling. It lands when every item of `i` has been performed, so it returns
BUSY = 0; the reads before it change nothing (R59; log 3). -/
def waitFor (p : Params) (i : Instr) : Input := ⟨i.itemsAtStart.length, .readReg (regAddr p .status) 32⟩

/-- `RUN <command line>`. -/
def runProgram (p : Params) (i : Instr) : List Input := submitProgram p i ++ [waitFor p i]

/-- `GENS k, A, B, n, w`: `k` STEPs, alternating the two buffers. -/
def gensProgram (p : Params) (n w : Word) : Nat → Addr → Addr → List Input
  | 0, _, _ => []
  | k + 1, a, b => runProgram p (.step a b n w w n) ++ gensProgram p n w k b a

/-- `FULLINIT A, seed, n, w`. -/
def fullInitProgram (p : Params) (a : Addr) (seed n w : Word) : List Input := runProgram p (.init a seed w w n)

end Sys2Proof.Machine
end

