-- ==== Sys2Proof/Safety.lean ====
section
/-! DEFINITION. Safety.lean: what the claims speak of: the invariant of every state a run reaches, and Life cell by cell. -/

namespace Sys2Proof.Machine

/-! ### The invariant -/

/-- What every state a run reaches has: canonical memories; `busy` exactly when a command is active (R29); nothing pending
without one; an active command that the doorbell's checks accept, with work items of its own index space left, none
twice (R29, R202, R206); and at most one mark (R33). -/
structure State.Inv (s : State) : Prop where
  memory : s.mem.wf = true
  oldMemory : s.before.wf = true
  busyActive : s.busy = s.active.isSome
  idle : s.active = none → s.pending = []
  accepted : ∀ i, s.active = some i → i.WellFormed = true
  running : ∀ i, s.active = some i → s.pending ≠ [] ∧ s.pending.Sublist i.indexSpace
  oneMark : s.faulted = none ∨ s.refused = none

/-- The item of a command, against the parameters and the memory of a state (R203). -/
def itemOf (i : Instr) (p : Params) (m : Mem) : Item → ItemEffect :=
  match i with
  | .init grid seed w _ _ => initItem p grid seed w
  | .step cur nxt g w _ _ => stepItem p m cur nxt g w
  | .render grid out g w xo yo width _ => renderItem p m grid out g w xo yo width

/-- D19, R62: while a command runs, its read footprint is as it was at its doorbell, and each byte of its write
footprint is as it was there or as an item performed so far wrote it. -/
def State.RaceInv (s : State) : Prop :=
  ∀ i, s.active = some i →
    (∀ a, i.readFootprint.holds a = true → s.mem.read a = s.before.read a) ∧
      ∀ a, i.writeFootprint.holds a = true →
        s.mem.read a = s.before.read a ∨
          ∃ it b bs k, it ∈ i.indexSpace ∧ it ∉ s.pending ∧ itemOf i s.params s.before it = .store b bs ∧
            a = b + k ∧ bs[k]? = some (s.mem.read a)

/-- Between commands: no mark, no active command, nothing pending. -/
def State.idleAndClean (s : State) : Prop :=
  s.marked = false ∧ s.busy = false ∧ s.active = none ∧ s.pending = []

/-- Every byte of the range is admitted by the launch memory (R264). -/
def admitsAll (p : Params) (r : ByteRange) : Prop := ∀ a, r.holds a = true → p.admits a 1 = true

/-- An unmarked state whose next action is the host's `a`, after which `rest` remains. -/
def State.hostMoves (s : State) (a : HostAction) (rest : List Input) : Prop :=
  s.marked = false ∧ s.inputs = ⟨0, a⟩ :: rest

/-- The host action `a` writes 1 to bit 0 of DOORBELL (R26). -/
def State.isDoorbell (s : State) (a : HostAction) : Prop :=
  ∃ v : Word, a = .writeReg (regAddr s.params .doorbell) 32 v ∧ v.getLsbD 0 = true

/-- The refusal of a command at its submission, with this code, and nothing else (R230). -/
def State.refusedFor (s : State) (c : RefusalCode) (i : Instr) : State := s.refuse (.rejected c (.command i))

/-- The refusal of a host access, with this code, and nothing else (R230). -/
def State.refusedAccess (s : State) (c : RefusalCode) (a : HostAction) : State := s.refuse (.rejected c (.access a))

/-- Of a list of failing conditions with their codes, `o` is the code of the first that holds (R231). -/
def FirstFailing : List (Prop × RefusalCode) → Option RefusalCode → Prop
  | [], o => o = none
  | (P, c) :: rest, o => (P ∧ o = some c) ∨ (¬P ∧ FirstFailing rest o)

/-- Two half-open ranges `[lo, hi)` share a byte (R241), said byte by byte. -/
def ShareAByte (lo hi lo' hi' : Int) : Prop := ∃ a : Int, lo ≤ a ∧ a < hi ∧ lo' ≤ a ∧ a < hi'

/-- A range that is not empty ends past 2^64 (R240). -/
def EndsPastMemory (lo hi : Int) : Prop := lo < hi ∧ 2 ^ 64 < hi

/-- Everything an item may change is `mem`, `pending`, `active`, `busy`, `faulted`, `picks` and `draws`: the rest of the
state is as before (R203). -/
def State.sameOutside (t s : State) : Prop :=
  t.desc = s.desc ∧ t.refused = s.refused ∧ t.params = s.params ∧ t.inputs = s.inputs ∧ t.reply = s.reply

/-- The item `it` has left `pending` (R203), and with the last item the command is complete (R206). -/
def State.retiredFrom (t s : State) (it : Item) : Prop :=
  t.pending = s.pending.erase it ∧
    (t.pending = [] → t.busy = false ∧ t.active = none) ∧
    (t.pending ≠ [] → t.busy = s.busy ∧ t.active = s.active) ∧
    t.faulted = s.faulted ∧ t.before = s.before

/-! ### Life, cell by cell (R80, R154) -/

/-- R80: the cell at row `r`, absolute column `q` of the grid at `base` with `W` words per row. -/
def cellAt (m : Mem) (base W r q : Nat) : Bool := (m.readWord (gridWordAddr base W r (q / 32))).getLsbD (q % 32)

/-- R154: the eight cells around `(r, q)` on the torus of side `G`. -/
def torusNeighbours (G r q : Nat) : List (Nat × Nat) :=
  [((r + G - 1) % G, (q + G - 1) % G), ((r + G - 1) % G, q), ((r + G - 1) % G, (q + 1) % G),
    (r, (q + G - 1) % G), (r, (q + 1) % G),
    ((r + 1) % G, (q + G - 1) % G), ((r + 1) % G, q), ((r + 1) % G, (q + 1) % G)]

/-- R154: the number of alive cells around `(r, q)`. -/
def aliveAround (m : Mem) (base G W r q : Nat) : Nat :=
  ((torusNeighbours G r q).filter fun c => cellAt m base W c.1 c.2).length

/-- R154: the cell is alive in the next generation: three neighbours, or two and alive now. -/
def aliveNext (m : Mem) (base G W r q : Nat) : Bool :=
  aliveAround m base G W r q == 3 || (aliveAround m base G W r q == 2 && cellAt m base W r q)

end Sys2Proof.Machine
end

