-- ==== Sys2Proof/Certificates/Slice0/Obligations.lean ====
section
/-! DEFINITION. Certificates/Slice0/Obligations.lean: the statements about GOLPACK, from the numbered rules of spec/. -/

open Sys2Proof Sys2Proof.Machine

/-! ### Encoding -/

/-- The three descriptors of program P1, written out word by word from R83, decode to the commands they spell. -/
def Obligations.WrittenOutDescriptorsDecode : Prop :=
  decode #v[0x00000000, 0x00001000, 0, 0, 0, 0x12345678, 0, 1, 0, 0, 0, 1, 0x20, 0, 0, 0] =
      .ok (.init 0x1000 0x12345678 1 1 32) ∧
    decode #v[0x00000001, 0x00001000, 0, 0x00002000, 0, 0, 0x20, 1, 0, 0, 0, 1, 0x20, 0, 0, 0] =
      .ok (.step 0x1000 0x2000 32 1 1 32) ∧
    decode #v[0x00000002, 0x00002000, 0, 0x00003000, 0, 0, 0x20, 1, 0x1C, 0x1E, 8, 0, 4, 0, 0, 0] =
      .ok (.render 0x2000 0x3000 32 1 28 30 8 4) ∧
    decode #v[0x00000001, 0x9ABCDEF0, 0x12345678, 4, 0x80000000, 0, 0, 0, 0, 0, 0, 0, 0, 0, 0, 0] =
      .ok (.step 0x123456789ABCDEF0 0x8000000000000004 0 0 0 0)

/-- R83, R85, R87: decoding the 16 words of any command gives the command back, whatever its operands. -/
def Obligations.DecodeOfEncodeIsTheCommand : Prop := ∀ i : Instr, decode (encode i) = .ok i

/-- R88: no field of a descriptor is ignored: a descriptor that decodes is exactly the encoding of what it decodes to. -/
def Obligations.DecodedDescriptorIsTheEncoding : Prop :=
  ∀ (d : Descriptor) (i : Instr), decode d = .ok i → encode i = d

/-! ### The doorbell's checks -/

/-- R232: a write of GO = 1 while busy is refused with code 1, and changes nothing else. -/
def Obligations.BusyDoorbellRefused : Prop :=
  ∀ (s : State) (a : HostAction) (rest : List Input), s.hostMoves a rest → s.isDoorbell a → s.busy = true →
    step s = .next ((s.setInputs rest).refusedAccess .doorbellWhileBusy a)

/-- R233: a doorbell with some DESC word unwritten, and a host read of an unwritten DESC register, are refused. -/
def Obligations.UnwrittenDescriptorRefused : Prop :=
  (∀ (s : State) (a : HostAction) (rest : List Input) (k : Fin 16), s.hostMoves a rest → s.isDoorbell a →
      s.busy = false → s.desc[k] = .unwritten →
      step s = .next ((s.setInputs rest).refusedAccess .descUnwritten a)) ∧
    ∀ (s : State) (rest : List Input) (k : Fin 16),
      s.hostMoves (.readReg (regAddr s.params (.desc k)) 32) rest → s.desc[k] = .unwritten →
      step s = .next ((s.setInputs rest).refusedAccess .descUnwritten (.readReg (regAddr s.params (.desc k)) 32))

/-- R234: a doorbell is refused with ILLEGAL_OPCODE when DESC[0] is not 0, 1 or 2 (checks 1 and 2 having passed). -/
def Obligations.IllegalOpcodeRefused : Prop :=
  ∀ (s : State) (a : HostAction) (rest : List Input) (d : Descriptor), s.hostMoves a rest → s.isDoorbell a →
    s.busy = false → s.desc = writtenRegs d → d[0] ≠ 0 → d[0] ≠ 1 → d[0] ≠ 2 →
    step s = .next ((s.setInputs rest).refusedAccess .illegalOpcode a)

/-- R235, R83: a doorbell is refused with RESERVED_NONZERO when a word reserved for its opcode is not zero. -/
def Obligations.ReservedWordRefused : Prop :=
  ∀ (s : State) (a : HostAction) (rest : List Input) (d : Descriptor), s.hostMoves a rest → s.isDoorbell a →
    s.busy = false → s.desc = writtenRegs d →
    ((d[0] = 0 ∧ (d[3] ≠ 0 ∨ d[4] ≠ 0 ∨ d[6] ≠ 0 ∨ d[8] ≠ 0 ∨ d[9] ≠ 0 ∨ d[10] ≠ 0 ∨ d[13] ≠ 0 ∨ d[14] ≠ 0 ∨
        d[15] ≠ 0)) ∨
      (d[0] = 1 ∧ (d[5] ≠ 0 ∨ d[8] ≠ 0 ∨ d[9] ≠ 0 ∨ d[10] ≠ 0 ∨ d[13] ≠ 0 ∨ d[14] ≠ 0 ∨ d[15] ≠ 0)) ∨
      (d[0] = 2 ∧ (d[5] ≠ 0 ∨ d[11] ≠ 0 ∨ d[13] ≠ 0 ∨ d[14] ≠ 0 ∨ d[15] ≠ 0))) →
    step s = .next ((s.setInputs rest).refusedAccess .reservedNonzero a)

/-- R236: a submission with a negative i32 operand is refused with NEGATIVE_PARAM.
That the record names the command, and that the command makes the check, are the model's choices (logs 1 and 15). -/
def Obligations.NegativeOperandRefused : Prop :=
  ∀ s : State, s.active = none →
    (∀ grid seed w ex ey, w.toInt < 0 →
      exec (.init grid seed w ex ey) s = .next (s.refusedFor .negativeParam (.init grid seed w ex ey))) ∧
    (∀ cur nxt g w ex ey, g.toInt < 0 ∨ w.toInt < 0 →
      exec (.step cur nxt g w ex ey) s = .next (s.refusedFor .negativeParam (.step cur nxt g w ex ey))) ∧
    ∀ grid out g w xo yo width ey,
      g.toInt < 0 ∨ w.toInt < 0 ∨ xo.toInt < 0 ∨ yo.toInt < 0 ∨ width.toInt < 0 →
      exec (.render grid out g w xo yo width ey) s =
        .next (s.refusedFor .negativeParam (.render grid out g w xo yo width ey))

/-- R237: a STEP or RENDER whose GRID_SIZE is not a multiple of 32 is refused, with GRID_NOT_MULT32 when no operand is
negative (R231).
That the record names the command, and that the command makes the check, are the model's choices (logs 1 and 15). -/
def Obligations.GridNotMultipleOf32Refused : Prop :=
  ∀ s : State, s.active = none →
    (∀ cur nxt g w ex ey, g.toInt % 32 ≠ 0 →
      ∃ c, exec (.step cur nxt g w ex ey) s = .next (s.refusedFor c (.step cur nxt g w ex ey)) ∧
        (0 ≤ g.toInt → 0 ≤ w.toInt → c = .gridNotMult32)) ∧
    ∀ grid out g w xo yo width ey, g.toInt % 32 ≠ 0 →
      ∃ c, exec (.render grid out g w xo yo width ey) s =
          .next (s.refusedFor c (.render grid out g w xo yo width ey)) ∧
        (0 ≤ g.toInt → 0 ≤ w.toInt → 0 ≤ xo.toInt → 0 ≤ yo.toInt → 0 ≤ width.toInt → c = .gridNotMult32)

/-- R238: a STEP or RENDER whose WIDTH_IN_UINTS is not GRID_SIZE / 32 is refused, with WIDTH_MISMATCH when no operand is
negative and GRID_SIZE is a multiple of 32 (R231).
That the record names the command, and that the command makes the check, are the model's choices (logs 1 and 15). -/
def Obligations.WidthMismatchRefused : Prop :=
  ∀ s : State, s.active = none →
    (∀ cur nxt g w ex ey, w.toInt ≠ g.toInt / 32 →
      ∃ c, exec (.step cur nxt g w ex ey) s = .next (s.refusedFor c (.step cur nxt g w ex ey)) ∧
        (0 ≤ g.toInt → 0 ≤ w.toInt → g.toInt % 32 = 0 → c = .widthMismatch)) ∧
    ∀ grid out g w xo yo width ey, w.toInt ≠ g.toInt / 32 →
      ∃ c, exec (.render grid out g w xo yo width ey) s =
          .next (s.refusedFor c (.render grid out g w xo yo width ey)) ∧
        (0 ≤ g.toInt → 0 ≤ w.toInt → 0 ≤ xo.toInt → 0 ≤ yo.toInt → 0 ≤ width.toInt → g.toInt % 32 = 0 →
          c = .widthMismatch)

/-- R239: a command whose word-buffer address is not a multiple of 4 is refused; RENDER's byte target is not checked.
That the record names the command, and that the command makes the check, are the model's choices (logs 1 and 15). -/
def Obligations.MisalignedWordBufferRefused : Prop :=
  ∀ s : State, s.active = none →
    (∀ grid seed w ex ey, grid.toNat % 4 ≠ 0 →
      ∃ c, exec (.init grid seed w ex ey) s = .next (s.refusedFor c (.init grid seed w ex ey)) ∧
        (0 ≤ w.toInt → c = .misalignedWordBuffer)) ∧
    (∀ cur nxt g w ex ey, cur.toNat % 4 ≠ 0 ∨ nxt.toNat % 4 ≠ 0 →
      ∃ c, exec (.step cur nxt g w ex ey) s = .next (s.refusedFor c (.step cur nxt g w ex ey)) ∧
        (0 ≤ g.toInt → g.toInt = 32 * w.toInt → c = .misalignedWordBuffer)) ∧
    (∀ grid out g w xo yo width ey, grid.toNat % 4 ≠ 0 →
      ∃ c, exec (.render grid out g w xo yo width ey) s =
          .next (s.refusedFor c (.render grid out g w xo yo width ey)) ∧
        (0 ≤ g.toInt → g.toInt = 32 * w.toInt → 0 ≤ xo.toInt → 0 ≤ yo.toInt → 0 ≤ width.toInt →
          c = .misalignedWordBuffer)) ∧
    ∀ grid out g w xo yo width ey, s.refused = none → grid.toNat % 4 = 0 →
      exec (.render grid out g w xo yo width ey) s ≠
        .next (s.refusedFor .misalignedWordBuffer (.render grid out g w xo yo width ey))

/-- R240, R205: a command with a non-empty footprint that ends past 2^64 is refused.
That the record names the command, and that the command makes the check, are the model's choices (logs 1 and 15). -/
def Obligations.FootprintOverflowRefused : Prop :=
  ∀ s : State, s.active = none →
    (∀ grid seed w ex ey,
      0 < ex.toNat ∧ EndsPastMemory grid.toNat (grid.toNat + 4 * (ey.toNat * w.toInt)) →
      ∃ c, exec (.init grid seed w ex ey) s = .next (s.refusedFor c (.init grid seed w ex ey)) ∧
        (0 ≤ w.toInt → grid.toNat % 4 = 0 → c = .footprintOverflow)) ∧
    (∀ cur nxt g w ex ey, 0 ≤ g.toInt → 0 ≤ w.toInt →
      EndsPastMemory cur.toNat (cur.toNat + 4 * (g.toInt * w.toInt)) ∨
        EndsPastMemory nxt.toNat (nxt.toNat + 4 * (g.toInt * w.toInt)) →
      ∃ c, exec (.step cur nxt g w ex ey) s = .next (s.refusedFor c (.step cur nxt g w ex ey)) ∧
        (g.toInt = 32 * w.toInt → cur.toNat % 4 = 0 → nxt.toNat % 4 = 0 → c = .footprintOverflow)) ∧
    ∀ grid out g w xo yo width ey, 0 ≤ g.toInt → 0 ≤ w.toInt → 0 ≤ width.toInt →
      EndsPastMemory grid.toNat (grid.toNat + 4 * (g.toInt * w.toInt)) ∨
        EndsPastMemory out.toNat (out.toNat + width.toInt * ey.toNat) →
      ∃ c, exec (.render grid out g w xo yo width ey) s =
          .next (s.refusedFor c (.render grid out g w xo yo width ey)) ∧
        (g.toInt = 32 * w.toInt → 0 ≤ xo.toInt → 0 ≤ yo.toInt → grid.toNat % 4 = 0 → c = .footprintOverflow)

/-- R241, R205: a STEP or RENDER whose read and write footprints share a byte is refused; an INIT never is by this
check.
That the record names the command, and that the command makes the check, are the model's choices (logs 1 and 15). -/
def Obligations.OverlappingBuffersRefused : Prop :=
  ∀ s : State, s.active = none →
    (∀ cur nxt g w ex ey, 0 ≤ g.toInt → 0 ≤ w.toInt →
      ShareAByte cur.toNat (cur.toNat + 4 * (g.toInt * w.toInt)) nxt.toNat (nxt.toNat + 4 * (g.toInt * w.toInt)) →
      ∃ c, exec (.step cur nxt g w ex ey) s = .next (s.refusedFor c (.step cur nxt g w ex ey)) ∧
        (g.toInt = 32 * w.toInt → cur.toNat % 4 = 0 → nxt.toNat % 4 = 0 →
          cur.toNat + 4 * (g.toInt * w.toInt) ≤ 2 ^ 64 → nxt.toNat + 4 * (g.toInt * w.toInt) ≤ 2 ^ 64 →
          c = .bufferOverlap)) ∧
    (∀ grid out g w xo yo width ey, 0 ≤ g.toInt → 0 ≤ w.toInt → 0 ≤ width.toInt →
      ShareAByte grid.toNat (grid.toNat + 4 * (g.toInt * w.toInt)) out.toNat (out.toNat + width.toInt * ey.toNat) →
      ∃ c, exec (.render grid out g w xo yo width ey) s =
          .next (s.refusedFor c (.render grid out g w xo yo width ey)) ∧
        (g.toInt = 32 * w.toInt → 0 ≤ xo.toInt → 0 ≤ yo.toInt → grid.toNat % 4 = 0 →
          grid.toNat + 4 * (g.toInt * w.toInt) ≤ 2 ^ 64 → out.toNat + width.toInt * ey.toNat ≤ 2 ^ 64 →
          c = .bufferOverlap)) ∧
    ∀ grid seed w ex ey, s.refused = none → exec (.init grid seed w ex ey) s ≠
      .next (s.refusedFor .bufferOverlap (.init grid seed w ex ey))

/-- R231, checks 5 to 10: a submission is refused with the code of the FIRST failing check, in the order of R231, and with
none failing it is not refused.
That the record names the command, and that the command makes the check, are the model's choices (logs 1 and 15). -/
def Obligations.FirstFailingCheckIsReported : Prop :=
  ∀ s : State, s.active = none →
    (∀ grid seed w ex ey, ∃ o,
      FirstFailing
        [(w.toInt < 0, .negativeParam), (grid.toNat % 4 ≠ 0, .misalignedWordBuffer),
          (0 < ex.toNat ∧ EndsPastMemory grid.toNat (grid.toNat + 4 * (ey.toNat * w.toInt)), .footprintOverflow)] o ∧
      exec (.init grid seed w ex ey) s =
        .next (match o with
          | some c => s.refusedFor c (.init grid seed w ex ey)
          | none => s.start (.init grid seed w ex ey))) ∧
    (∀ cur nxt g w ex ey, ∃ o,
      FirstFailing
        [(g.toInt < 0 ∨ w.toInt < 0, .negativeParam), (g.toInt % 32 ≠ 0, .gridNotMult32),
          (w.toInt ≠ g.toInt / 32, .widthMismatch),
          (cur.toNat % 4 ≠ 0 ∨ nxt.toNat % 4 ≠ 0, .misalignedWordBuffer),
          (EndsPastMemory cur.toNat (cur.toNat + 4 * (g.toInt * w.toInt)) ∨
            EndsPastMemory nxt.toNat (nxt.toNat + 4 * (g.toInt * w.toInt)), .footprintOverflow),
          (ShareAByte cur.toNat (cur.toNat + 4 * (g.toInt * w.toInt)) nxt.toNat
            (nxt.toNat + 4 * (g.toInt * w.toInt)), .bufferOverlap)] o ∧
      exec (.step cur nxt g w ex ey) s =
        .next (match o with
          | some c => s.refusedFor c (.step cur nxt g w ex ey)
          | none => s.start (.step cur nxt g w ex ey))) ∧
    ∀ grid out g w xo yo width ey, ∃ o,
      FirstFailing
        [(g.toInt < 0 ∨ w.toInt < 0 ∨ xo.toInt < 0 ∨ yo.toInt < 0 ∨ width.toInt < 0, .negativeParam),
          (g.toInt % 32 ≠ 0, .gridNotMult32), (w.toInt ≠ g.toInt / 32, .widthMismatch),
          (grid.toNat % 4 ≠ 0, .misalignedWordBuffer),
          (EndsPastMemory grid.toNat (grid.toNat + 4 * (g.toInt * w.toInt)) ∨
            EndsPastMemory out.toNat (out.toNat + width.toInt * ey.toNat), .footprintOverflow),
          (ShareAByte grid.toNat (grid.toNat + 4 * (g.toInt * w.toInt)) out.toNat
            (out.toNat + width.toInt * ey.toNat), .bufferOverlap)] o ∧
      exec (.render grid out g w xo yo width ey) s =
        .next (match o with
          | some c => s.refusedFor c (.render grid out g w xo yo width ey)
          | none => s.start (.render grid out g w xo yo width ey))

/-! ### An accepted doorbell -/

/-- R201, R202, R206, R93: an accepted INIT, STEP or RENDER becomes the active command with every point of its index
space pending, once each; with an empty index space, or for STEP and RENDER with G = W = 0, it completes at once; nothing
else changes, but that the memory it starts from is kept as the old one (log 5). That G = W = 0 leaves no item to perform
is R93's and D25's word over R202's (log 23).
That submission is a step of the command itself is the model's reading (log 1). -/
def Obligations.AcceptedCommandStarts : Prop :=
  ∀ (s : State) (i : Instr) (nx ny : Nat) (empty : Prop), s.active = none → s.busy = false → i.WellFormed = true →
    (match i with
      | .init _ _ _ ex ey => nx = ex.toNat ∧ ny = ey.toNat ∧ ¬empty
      | .step _ _ g w ex ey => nx = ex.toNat ∧ ny = ey.toNat ∧ (empty ↔ g = 0 ∧ w = 0)
      | .render _ _ g w _ _ width ey => (nx : Int) = width.toInt ∧ ny = ey.toNat ∧ (empty ↔ g = 0 ∧ w = 0)) →
    ∃ t, exec i s = .next t ∧ (∀ x y, (x, y) ∈ t.pending ↔ x < nx ∧ y < ny ∧ ¬empty) ∧ t.pending.Nodup ∧
      (0 < nx ∧ 0 < ny ∧ ¬empty → t.busy = true ∧ t.active = some i) ∧
      (nx = 0 ∨ ny = 0 ∨ empty → t.busy = false ∧ t.active = none) ∧
      t.mem = s.mem ∧ t.before = s.mem ∧ t.faulted = s.faulted ∧ t.sameOutside s ∧ t.picks = s.picks ∧
      t.draws = s.draws

/-! ### The work items -/

/-- R118, R117, R203, R206: an in-range INIT item writes its word, leaves `pending`, and with the last item the command is
complete. Every other byte of memory, and everything else but the model's own pick carriers, is unchanged.
That an item is a step of its command is the model's reading (log 1). -/
def Obligations.InitItemWritesItsWord : Prop :=
  ∀ (s : State) grid seed w ex ey (x y : Nat),
    s.active = some (.init grid seed w ex ey) → s.nextItem = some (x, y) → s.mem.wf = true → 0 ≤ w.toInt →
    (x : Int) < w.toInt → s.params.admits (grid.toNat + 4 * (y * w.toNat + x)) 4 = true →
    ∃ t, exec (.init grid seed w ex ey) s = .next t ∧
      t.mem.readWord (grid.toNat + 4 * (y * w.toNat + x)) =
        (let s0 := BitVec.ofNat 32 x * 2654435761#32 ^^^ BitVec.ofNat 32 y * 0x9E3779B9#32 ^^^ seed
        match s.params.prngChain with
        | .stateChain => genOutput (genAdvance s0)
        | .valueChain => genOutput (genAdvance (genOutput (genAdvance s0)))) ∧
      (∀ a, a < grid.toNat + 4 * (y * w.toNat + x) ∨ grid.toNat + 4 * (y * w.toNat + x) + 4 ≤ a →
        t.mem.read a = s.mem.read a) ∧
      t.retiredFrom s (x, y) ∧ t.sameOutside s

/-- R140, R151, R203: an in-range STEP item whose ten accesses are admitted writes the ripple's life result of its nine
words at its own coordinate of `next`, leaves `pending`, and changes no other byte.
That an item is a step of its command is the model's reading (log 1). -/
def Obligations.StepItemWritesItsWord : Prop :=
  ∀ (s : State) cur nxt g w ex ey (x y : Nat),
    s.active = some (.step cur nxt g w ex ey) → s.nextItem = some (x, y) → s.mem.wf = true → 0 ≤ g.toInt →
    0 ≤ w.toInt → (x : Int) < w.toInt → (y : Int) < g.toInt →
    (∀ a ∈ hoodAddrs cur.toNat g.toNat w.toNat x y, s.params.admits a 4 = true) →
    s.params.admits (nxt.toNat + 4 * (y * w.toNat + x)) 4 = true →
    ∃ t, exec (.step cur nxt g w ex ey) s = .next t ∧
      t.mem.readWord (nxt.toNat + 4 * (y * w.toNat + x)) =
        lifeRule (ripple (planes (readHood s.mem cur.toNat g.toNat w.toNat x y)))
          (s.mem.readWord (cur.toNat + 4 * (y * w.toNat + x))) ∧
      (∀ a, a < nxt.toNat + 4 * (y * w.toNat + x) ∨ nxt.toNat + 4 * (y * w.toNat + x) + 4 ≤ a →
        t.mem.read a = s.mem.read a) ∧
      t.retiredFrom s (x, y) ∧ t.sameOutside s

/-- R154, R141 to R151: on the torus of an accepted STEP the word an item writes is Life, cell by cell: each of its 32 bits
is the 2-or-3 rule of the eight cells around that cell, across word boundaries and around both edges.
That an item is a step of its command is the model's reading (log 1). -/
def Obligations.StepItemIsLifeCellByCell : Prop :=
  ∀ (s : State) cur nxt g w ex ey (x y : Nat),
    s.active = some (.step cur nxt g w ex ey) → s.nextItem = some (x, y) → s.mem.wf = true → 0 ≤ w.toInt →
    g.toInt = 32 * w.toInt → (x : Int) < w.toInt → (y : Int) < g.toInt →
    (∀ a ∈ hoodAddrs cur.toNat g.toNat w.toNat x y, s.params.admits a 4 = true) →
    s.params.admits (nxt.toNat + 4 * (y * w.toNat + x)) 4 = true →
    ∃ t, exec (.step cur nxt g w ex ey) s = .next t ∧
      ∀ k, k < 32 →
        cellAt t.mem nxt.toNat w.toNat y (32 * x + k) = aliveNext s.mem cur.toNat g.toNat w.toNat y (32 * x + k)

/-- R180 to R185, R203: an in-grid RENDER item whose two accesses are admitted writes 255 for an alive cell and 0 for a
dead one at its pixel, leaves `pending`, and changes no other byte.
That an item is a step of its command is the model's reading (log 1). -/
def Obligations.RenderItemWritesItsPixel : Prop :=
  ∀ (s : State) grid out g w xo yo width ey (x y : Nat),
    s.active = some (.render grid out g w xo yo width ey) → s.nextItem = some (x, y) → s.mem.wf = true →
    0 ≤ g.toInt → 0 ≤ w.toInt → 0 ≤ xo.toInt → 0 ≤ yo.toInt → 0 ≤ width.toInt →
    (x : Int) + xo.toInt < g.toInt → (y : Int) + yo.toInt < g.toInt →
    s.params.admits (grid.toNat + 4 * ((y + yo.toNat) * w.toNat + (x + xo.toNat) / 32)) 4 = true →
    s.params.admits (out.toNat + y * width.toNat + x) 1 = true →
    ∃ t, exec (.render grid out g w xo yo width ey) s = .next t ∧
      t.mem.read (out.toNat + y * width.toNat + x) =
        (if cellAt s.mem grid.toNat w.toNat (y + yo.toNat) (x + xo.toNat) then 255#8 else 0#8) ∧
      (∀ a, a ≠ out.toNat + y * width.toNat + x → t.mem.read a = s.mem.read a) ∧
      t.retiredFrom s (x, y) ∧ t.sameOutside s

/-- R119, R141, R183, R203, R246: an item out of its command's range skips: it leaves `pending` and does nothing else; no
byte of memory changes and no mark is set.
That an item is a step of its command is the model's reading (log 1). -/
def Obligations.OutOfRangeItemSkips : Prop :=
  ∀ (s : State) (i : Instr) (x y : Nat), s.active = some i → s.nextItem = some (x, y) → i.WellFormed = true →
    (match i with
      | .init _ _ w _ _ => w.toInt ≤ x
      | .step _ _ g w _ _ => w.toInt ≤ x ∨ g.toInt ≤ y
      | .render _ _ g _ xo yo _ _ => g.toInt ≤ x + xo.toInt ∨ g.toInt ≤ y + yo.toInt) →
    ∃ t, exec i s = .next t ∧ t.mem = s.mem ∧ t.retiredFrom s (x, y) ∧ t.sameOutside s

/-- R244, R203, R247: an in-range item with an access that the launch memory does not admit records MEM_UNADMITTED with
the first such address in the pseudocode's order (nine reads and then the write for STEP, read and then write for
RENDER), and changes nothing else.
That the item stays pending and its pick is not used up is the model's reading (log 13). -/
def Obligations.UnadmittedAccessFaults : Prop :=
  (∀ (s : State) grid seed w ex ey (x y : Nat),
      s.active = some (.init grid seed w ex ey) → s.nextItem = some (x, y) → 0 ≤ w.toInt → (x : Int) < w.toInt →
      s.params.admits (grid.toNat + 4 * (y * w.toNat + x)) 4 = false →
      exec (.init grid seed w ex ey) s = .next (s.markFault
        (.memUnadmitted (.init grid seed w ex ey) (x, y) (grid.toNat + 4 * (y * w.toNat + x))))) ∧
    (∀ (s : State) cur nxt g w ex ey (x y : Nat) (before after : List Nat) (a : Nat),
      s.active = some (.step cur nxt g w ex ey) → s.nextItem = some (x, y) → 0 ≤ g.toInt → 0 ≤ w.toInt →
      (x : Int) < w.toInt → (y : Int) < g.toInt →
      hoodAddrs cur.toNat g.toNat w.toNat x y ++ [nxt.toNat + 4 * (y * w.toNat + x)] = before ++ a :: after →
      (∀ b ∈ before, s.params.admits b 4 = true) → s.params.admits a 4 = false →
      exec (.step cur nxt g w ex ey) s =
        .next (s.markFault (.memUnadmitted (.step cur nxt g w ex ey) (x, y) a))) ∧
    (∀ (s : State) grid out g w xo yo width ey (x y : Nat),
      s.active = some (.render grid out g w xo yo width ey) → s.nextItem = some (x, y) → 0 ≤ g.toInt →
      0 ≤ w.toInt → 0 ≤ xo.toInt → 0 ≤ yo.toInt → 0 ≤ width.toInt →
      (x : Int) + xo.toInt < g.toInt → (y : Int) + yo.toInt < g.toInt →
      s.params.admits (grid.toNat + 4 * ((y + yo.toNat) * w.toNat + (x + xo.toNat) / 32)) 4 = false →
      exec (.render grid out g w xo yo width ey) s = .next (s.markFault
        (.memUnadmitted (.render grid out g w xo yo width ey) (x, y)
          (grid.toNat + 4 * ((y + yo.toNat) * w.toNat + (x + xo.toNat) / 32))))) ∧
    ∀ (s : State) grid out g w xo yo width ey (x y : Nat),
      s.active = some (.render grid out g w xo yo width ey) → s.nextItem = some (x, y) → 0 ≤ g.toInt →
      0 ≤ w.toInt → 0 ≤ xo.toInt → 0 ≤ yo.toInt → 0 ≤ width.toInt →
      (x : Int) + xo.toInt < g.toInt → (y : Int) + yo.toInt < g.toInt →
      s.params.admits (grid.toNat + 4 * ((y + yo.toNat) * w.toNat + (x + xo.toNat) / 32)) 4 = true →
      s.params.admits (out.toNat + y * width.toNat + x) 1 = false →
      exec (.render grid out g w xo yo width ey) s = .next (s.markFault
        (.memUnadmitted (.render grid out g w xo yo width ey) (x, y) (out.toNat + y * width.toNat + x)))

/-! ### Frames -/

/-- What INIT leaves unchanged, whatever next state it answers: registers, parameters, the host's coming actions and
reply, and every byte outside the word the item in turn stores (all of memory when it stores none). What may change:
`pending`, `active` and `busy` (R201, R203, R206), a mark (R230, R243), the bytes stored and the pick carriers.
That an item is a step of its command is the model's reading (log 1). -/
def Obligations.InitFrame : Prop :=
  ∀ (s t : State) grid seed w ex ey, s.mem.wf = true → exec (.init grid seed w ex ey) s = .next t →
    t.desc = s.desc ∧ t.params = s.params ∧ t.inputs = s.inputs ∧ t.reply = s.reply ∧
      (s.active = some (.init grid seed w ex ey) → t.refused = s.refused ∧ t.before = s.before) ∧
      (s.active ≠ some (.init grid seed w ex ey) → t.before = s.before ∨ t.before = s.mem) ∧
      (s.active ≠ some (.init grid seed w ex ey) →
        t.faulted = s.faulted ∧ t.picks = s.picks ∧ t.draws = s.draws) ∧
      (∀ it, s.active = some (.init grid seed w ex ey) → s.nextItem = some it → it.1 < natOfI32 w →
        ∀ a, a < initStoreAddr grid w it ∨ initStoreAddr grid w it + 4 ≤ a → t.mem.read a = s.mem.read a) ∧
      ((s.active ≠ some (.init grid seed w ex ey) ∨ s.nextItem = none ∨
          ∃ it, s.nextItem = some it ∧ natOfI32 w ≤ it.1) → ∀ a, t.mem.read a = s.mem.read a)

/-- What STEP leaves unchanged, whatever next state it answers. What may change: `pending`,
`active` and `busy` (R201, R203, R206), a mark (R230, R243), the bytes stored and the pick carriers.
That an item is a step of its command is the model's reading (log 1). -/
def Obligations.StepFrame : Prop :=
  ∀ (s t : State) cur nxt g w ex ey, s.mem.wf = true → exec (.step cur nxt g w ex ey) s = .next t →
    t.desc = s.desc ∧ t.params = s.params ∧ t.inputs = s.inputs ∧ t.reply = s.reply ∧
      (s.active = some (.step cur nxt g w ex ey) → t.refused = s.refused ∧ t.before = s.before) ∧
      (s.active ≠ some (.step cur nxt g w ex ey) → t.before = s.before ∨ t.before = s.mem) ∧
      (s.active ≠ some (.step cur nxt g w ex ey) →
        t.faulted = s.faulted ∧ t.picks = s.picks ∧ t.draws = s.draws) ∧
      (∀ it, s.active = some (.step cur nxt g w ex ey) → s.nextItem = some it → it.1 < natOfI32 w →
        it.2 < natOfI32 g →
        ∀ a, a < stepStoreAddr nxt w it ∨ stepStoreAddr nxt w it + 4 ≤ a → t.mem.read a = s.mem.read a) ∧
      ((s.active ≠ some (.step cur nxt g w ex ey) ∨ s.nextItem = none ∨
          ∃ it, s.nextItem = some it ∧ (natOfI32 w ≤ it.1 ∨ natOfI32 g ≤ it.2)) →
        ∀ a, t.mem.read a = s.mem.read a)

/-- What RENDER leaves unchanged, whatever next state it answers. What may change: `pending`,
`active` and `busy` (R201, R203, R206), a mark (R230, R243), the bytes stored and the pick carriers.
That an item is a step of its command is the model's reading (log 1). -/
def Obligations.RenderFrame : Prop :=
  ∀ (s t : State) grid out g w xo yo width ey, s.mem.wf = true →
    exec (.render grid out g w xo yo width ey) s = .next t →
    t.desc = s.desc ∧ t.params = s.params ∧ t.inputs = s.inputs ∧ t.reply = s.reply ∧
      (s.active = some (.render grid out g w xo yo width ey) → t.refused = s.refused ∧ t.before = s.before) ∧
      (s.active ≠ some (.render grid out g w xo yo width ey) → t.before = s.before ∨ t.before = s.mem) ∧
      (s.active ≠ some (.render grid out g w xo yo width ey) →
        t.faulted = s.faulted ∧ t.picks = s.picks ∧ t.draws = s.draws) ∧
      (∀ it, s.active = some (.render grid out g w xo yo width ey) → s.nextItem = some it →
        it.1 + natOfI32 xo < natOfI32 g → it.2 + natOfI32 yo < natOfI32 g →
        ∀ a, a ≠ renderStoreAddr out width it → t.mem.read a = s.mem.read a) ∧
      ((s.active ≠ some (.render grid out g w xo yo width ey) ∨ s.nextItem = none ∨
          ∃ it, s.nextItem = some it ∧ (natOfI32 g ≤ it.1 + natOfI32 xo ∨ natOfI32 g ≤ it.2 + natOfI32 yo)) →
        ∀ a, t.mem.read a = s.mem.read a)

/-! ### The datapath -/

/-- R147: the full-adder step on every lane: sums and carries, the carry out of `c` discarded. -/
def Obligations.FullAdderStep : Prop :=
  ∀ (r : Acc) (p : Word),
    fullAdd r p =
      (let carryA := r.a &&& p
      let carryB := r.b &&& carryA
      { a := r.a ^^^ p, b := r.b ^^^ carryA, c := r.c ^^^ carryB })

/-- R149: after the ripple of the eight planes each lane holds the number of planes with that lane set, modulo 8. -/
def Obligations.RippleCountsModuloEight : Prop :=
  ∀ (ps : List Word) (k : Nat), ps.length = 8 → k < 32 →
    4 * ((ripple ps).c.getLsbD k).toNat + 2 * ((ripple ps).b.getLsbD k).toNat + ((ripple ps).a.getLsbD k).toNat =
      (ps.filter fun p => p.getLsbD k).length % 8

/-- R150, R149: with the TRUE count of the eight planes, 8 included, the lane is alive next exactly with three neighbours,
or with two when it is alive now. -/
def Obligations.LifeRuleFollowsTheCount : Prop :=
  ∀ (ps : List Word) (m : Word) (k : Nat), ps.length = 8 → k < 32 →
    ((lifeRule (ripple ps) m).getLsbD k = true ↔
      (ps.filter fun p => p.getLsbD k).length = 3 ∨
        ((ps.filter fun p => p.getLsbD k).length = 2 ∧ m.getLsbD k = true))

/-- R153: the order in which the planes are added is not observable. -/
def Obligations.PlaneOrderUnobservable : Prop := ∀ ps qs : List Word, ps.Perm qs → ripple ps = ripple qs

/-- R143, R144: the west and the east plane, lane by lane, with the borrowed bit of the neighbouring word. -/
def Obligations.PlanesBorrowAcrossWords : Prop :=
  ∀ (c o : Word) (k : Nat), k < 32 →
    (westPlane c o).getLsbD k = (if k = 0 then o.getLsbD 31 else c.getLsbD (k - 1)) ∧
      (eastPlane c o).getLsbD k = (if k = 31 then o.getLsbD 0 else c.getLsbD (k + 1))

/-- R142: on a ring of `n` both neighbours of an index in range are in range, each undoes the other, and away from the
edge they are the index minus and plus one. -/
def Obligations.RingNeighboursWrap : Prop :=
  ∀ n i : Nat, i < n →
    ringPrev n i = (i + n - 1) % n ∧ ringNext n i = (i + 1) % n ∧ ringPrev n (ringNext n i) = i ∧
      ringNext n (ringPrev n i) = i

/-! ### The generator -/

/-- R112: the state advance, as arithmetic modulo 2^32. -/
def Obligations.GeneratorAdvance : Prop :=
  ∀ s : Word, (genAdvance s).toNat = (s.toNat * 747796405 + 2891336453) % 2 ^ 32

/-- R113: the output transform of the state before the advance, and its shift amount, which is 4 to 19. -/
def Obligations.GeneratorOutput : Prop :=
  ∀ s : Word, ∃ (r : Nat) (v : Word), r = s.toNat / 2 ^ 28 + 4 ∧ 4 ≤ r ∧ r ≤ 19 ∧
    v.toNat = (((s.toNat / 2 ^ r) ^^^ s.toNat) * 277803737) % 2 ^ 32 ∧
    (genOutput s).toNat = (v.toNat / 2 ^ 22) ^^^ v.toNat

/-- R122: the word an INIT item stores depends on its coordinates, the seed and the two generator parameters only: two
items of two commands, in two states, with other grids, widths and extents, store the same word. -/
def Obligations.InitWordDependsOnCoordinatesAndSeed : Prop :=
  ∀ (s s' t t' : State) grid grid' seed w w' ex ex' ey ey' (x y : Nat),
    s.active = some (.init grid seed w ex ey) → s'.active = some (.init grid' seed w' ex' ey') →
    s.nextItem = some (x, y) → s'.nextItem = some (x, y) → s.mem.wf = true → s'.mem.wf = true →
    x < natOfI32 w → x < natOfI32 w' → s.params.prngChain = s'.params.prngChain →
    s.params.seedMix = s'.params.seedMix →
    exec (.init grid seed w ex ey) s = .next t → exec (.init grid' seed w' ex' ey') s' = .next t' →
    t.faulted = none → t'.faulted = none →
    t.mem.readWord (initStoreAddr grid w (x, y)) = t'.mem.readWord (initStoreAddr grid' w' (x, y))

/-! ### Whole-machine rules -/

/-- Every step keeps the invariant: canonical memory, `busy` with an active command, pending items of its index space
only, and at most one mark. -/
def Obligations.StepKeepsInvariant : Prop := ∀ s t : State, s.Inv → step s = .next t → t.Inv

/-- The invariant holds right after reset. -/
def Obligations.ResetMeetsInvariant : Prop := State.reset.Inv

/-- R34, R263: the state right after reset. (The memory's contents, the parameters REG_BASE and admitted, and the model's
own fields are no rule's: logs 3 to 9; nothing is said of them here.) -/
def Obligations.ResetState : Prop :=
  (∀ k : Fin 16, State.reset.desc[k] = .unwritten) ∧ State.reset.busy = false ∧ State.reset.statusWord = 0 ∧
    State.reset.active = none ∧ State.reset.pending = [] ∧ State.reset.faulted = none ∧ State.reset.refused = none

/-- R33, R262: a state with a mark set has no further step, whatever is due, reset included; its outcome is the record
(log 2). -/
def Obligations.MarkedStateHasNoStep : Prop :=
  (∀ (s : State) (f : Fault), s.faulted = some f → step s = .fault f) ∧
    (∀ (s : State) (r : Refusal), s.faulted = none → s.refused = some r → step s = .refused r) ∧
    ∀ s t : State, step s = .next t → s.faulted = none ∧ s.refused = none

/-- R9, R20: the open parameters are no state: no step changes them. -/
def Obligations.StepKeepsParameters : Prop := ∀ s t : State, step s = .next t → t.params = s.params

/-- R25, R34, R260: a descriptor register changes only by a host write of that register or by a reset. -/
def Obligations.OnlyHostChangesDescriptor : Prop :=
  ∀ (s t : State) (k : Fin 16), step s = .next t → t.desc[k] ≠ s.desc[k] →
    ∃ n a rest, s.inputs = ⟨n, a⟩ :: rest ∧
      (a = .reset ∨ ∃ v, a = .writeReg (regAddr s.params (.desc k)) 32 v ∧ t.desc[k] = .written v)

/-- R205, R57, R121, R151, R185: a byte of memory changes only inside the active command's write footprint, by a work item,
or by a host write of that byte. -/
def Obligations.MemoryChangesOnlyInFootprint : Prop :=
  ∀ (s t : State) (a : Nat), s.Inv → step s = .next t → t.mem.read a ≠ s.mem.read a →
    (∃ i, s.active = some i ∧ i.writeFootprint.holds a = true) ∨
      ∃ n addr bytes rest, s.inputs = ⟨n, .writeMem addr bytes⟩ :: rest ∧ addr ≤ a ∧ a < addr + bytes.length

/-- R205, R57: what a STEP or RENDER item of an accepted command does depends on the bytes of the read footprint only: two
memories that agree there give the same effect. -/
def Obligations.ItemReadsOnlyReadFootprint : Prop :=
  (∀ (p : Params) (m m' : Mem) cur nxt g w ex ey (it : Item),
      (Instr.step cur nxt g w ex ey).WellFormed = true →
      (∀ a, (Instr.step cur nxt g w ex ey).readFootprint.holds a = true → m.read a = m'.read a) →
      stepItem p m cur nxt g w it = stepItem p m' cur nxt g w it) ∧
    ∀ (p : Params) (m m' : Mem) grid out g w xo yo width ey (it : Item),
      (Instr.render grid out g w xo yo width ey).WellFormed = true →
      (∀ a, (Instr.render grid out g w xo yo width ey).readFootprint.holds a = true → m.read a = m'.read a) →
      renderItem p m grid out g w xo yo width it = renderItem p m' grid out g w xo yo width it

/-! ### The host -/

/-- When the doorbell is due and DESC holds a descriptor that decodes to `i`, the step is `exec i` after the host action is
taken from the queue; when a work item moves, the step is `exec` of the active command, with the wait of the next host
action one less; and `withFetchWord` makes the very next step run the command it places.
The queue of coming host actions is the model's own (logs 1, 3 and 16). -/
def Obligations.StepRunsDecodedCommand : Prop :=
  (∀ (s : State) (a : HostAction) (rest : List Input) (d : Descriptor) (i : Instr), s.hostMoves a rest →
      s.isDoorbell a → s.busy = false → s.desc = writtenRegs d → decode d = .ok i →
      step s = exec i (s.setInputs rest)) ∧
    (∀ (s : State) (i : Instr), s.marked = false → s.inputs = [] → s.active = some i → step s = exec i s) ∧
    (∀ (s : State) (i : Instr) (n : Nat) (a : HostAction) (rest : List Input), s.marked = false →
      s.inputs = ⟨n + 1, a⟩ :: rest → s.active = some i → step s = exec i (s.setInputs (⟨n, a⟩ :: rest))) ∧
    ∀ (s : State) (nbits w : Nat) (i : Instr), decodeTableWord nbits w = some i →
      step (s.withFetchWord nbits w) = exec i ((s.withFetchWord nbits w).setInputs s.inputs)

/-- R257, R204: a block with no active command and no coming host action stays as it is.
The self-loop is the model's reading (log 20). -/
def Obligations.IdleBlockStays : Prop :=
  ∀ s : State, s.marked = false → s.active = none → s.inputs = [] → step s = .next s

/-- R25, R218 (H1): a host write of DESC[k] at any time, a running command included, stores the word there and changes
nothing else: not the running command, which works from its snapshot. -/
def Obligations.HostWritesDescriptorRegister : Prop :=
  ∀ (s : State) (rest : List Input) (k : Fin 16) (v : Word),
    s.hostMoves (.writeReg (regAddr s.params (.desc k)) 32 v) rest →
    ∃ t, step s = .next t ∧ t.desc[k] = .written v ∧ (∀ j : Fin 16, j ≠ k → t.desc[j] = s.desc[j]) ∧
      { t with desc := s.desc } = s.setInputs rest

/-- R25 to R27 (H2, H5): a host read of a written DESC register returns the word written, of STATUS the busy bit with
every other bit 0, of DOORBELL 0; it changes nothing.
The returned word stands in the model's own field `reply` (log 6). -/
def Obligations.HostReadsRegisters : Prop :=
  (∀ (s : State) (rest : List Input) (k : Fin 16) (v : Word),
      s.hostMoves (.readReg (regAddr s.params (.desc k)) 32) rest → s.desc[k] = .written v →
      step s = .next ((s.setInputs rest).answer (.word v))) ∧
    (∀ (s : State) (rest : List Input), s.hostMoves (.readReg (regAddr s.params .status) 32) rest →
      ∃ v : Word, step s = .next ((s.setInputs rest).answer (.word v)) ∧ v.getLsbD 0 = s.busy ∧
        ∀ k, 1 ≤ k → v.getLsbD k = false) ∧
    ∀ (s : State) (rest : List Input), s.hostMoves (.readReg (regAddr s.params .doorbell) 32) rest →
      step s = .next ((s.setInputs rest).answer (.word 0))

/-- R26, R27 (H4): a write of DOORBELL with bit 0 = 0, and any write of STATUS, changes nothing. -/
def Obligations.IdleRegisterWritesChangeNothing : Prop :=
  (∀ (s : State) (rest : List Input) (v : Word), s.hostMoves (.writeReg (regAddr s.params .doorbell) 32 v) rest →
      v.getLsbD 0 = false → step s = .next (s.setInputs rest)) ∧
    ∀ (s : State) (rest : List Input) (v : Word), s.hostMoves (.writeReg (regAddr s.params .status) 32 v) rest →
      step s = .next (s.setInputs rest)

/-- R242, R24 (H6): a register access that is not 32 bits wide, or not at REG_BASE plus one of 0x00, 0x04, ..., 0x44, is
refused, as a write and as a read; a 32-bit write of STATUS and a 32-bit read of DOORBELL are not.
An address below REG_BASE counts as another offset (log 14). -/
def Obligations.OtherRegisterAccessRefused : Prop :=
  (∀ (s : State) (rest : List Input) (addr bits : Nat) (v : Word),
      s.hostMoves (.writeReg addr bits v) rest → (bits ≠ 32 ∨ ∀ k, k < 18 → addr ≠ s.params.regBase + 4 * k) →
      step s = .next ((s.setInputs rest).refusedAccess .registerAccess (.writeReg addr bits v))) ∧
    (∀ (s : State) (rest : List Input) (addr bits : Nat),
      s.hostMoves (.readReg addr bits) rest → (bits ≠ 32 ∨ ∀ k, k < 18 → addr ≠ s.params.regBase + 4 * k) →
      step s = .next ((s.setInputs rest).refusedAccess .registerAccess (.readReg addr bits))) ∧
    (∀ (s : State) (rest : List Input) (v : Word), s.hostMoves (.writeReg (s.params.regBase + 0x44) 32 v) rest →
      step s = .next (s.setInputs rest)) ∧
    ∀ (s : State) (rest : List Input), s.hostMoves (.readReg (s.params.regBase + 0x40) 32) rest →
      step s = .next ((s.setInputs rest).answer (.word 0))

/-- R215 H7: a host write of data memory while no command runs, or wholly outside the active footprints, changes exactly
the bytes written.
That the launch memory need not admit the bytes is the model's reading (log 12), and a write past 2^64, which the model
refuses by its choice, is not spoken of (log 11). -/
def Obligations.HostWritesMemory : Prop :=
  ∀ (s : State) (rest : List Input) (addr : Nat) (bytes : List Byte), s.hostMoves (.writeMem addr bytes) rest →
    s.mem.wf = true → addr + bytes.length ≤ 2 ^ 64 →
    (s.busy = false ∨ ∀ i, s.active = some i → ∀ a, addr ≤ a → a < addr + bytes.length →
      i.readFootprint.holds a = false ∧ i.writeFootprint.holds a = false) →
    ∃ t, step s = .next t ∧ (∀ k (h : k < bytes.length), t.mem.read (addr + k) = bytes[k]) ∧
      (∀ a, a < addr ∨ addr + bytes.length ≤ a → t.mem.read a = s.mem.read a) ∧
      { t with mem := s.mem } = s.setInputs rest

/-- R245, R216 (H7'): a host write of any byte inside the active command's read or write footprint while busy records
HOST_RACE and does not change memory. That it changes nothing else, so that the command stays active and pending, is the
model's reading (log 13), and a write past 2^64, which the model refuses by its choice, is not spoken of (log 11). -/
def Obligations.HostWriteRaceFaults : Prop :=
  ∀ (s : State) (rest : List Input) (addr : Nat) (bytes : List Byte) (i : Instr) (a : Nat),
    s.hostMoves (.writeMem addr bytes) rest → addr + bytes.length ≤ 2 ^ 64 → s.busy = true → s.active = some i →
    addr ≤ a → a < addr + bytes.length → (i.readFootprint.holds a = true ∨ i.writeFootprint.holds a = true) →
    step s = .next ((s.setInputs rest).markFault (.hostRace i (.writeMem addr bytes)))

/-- R215 H8, R217, D19 (H8'): a host read of data memory returns as many bytes as asked, each the memory's byte, but for
a byte inside the write footprint of a running command, of which it returns the old value (the one at the command's
doorbell) or the memory's; it sets no mark and changes nothing but the draw counter. The two values are D19's ruling on
R217's draw, and which of them it is is a free value (log 5). The returned bytes stand in the model's own field `reply`
(log 6). That the launch memory need not admit the bytes is the model's reading (log 12), and a read past 2^64, which the
model refuses by its choice, is not spoken of (log 11). -/
def Obligations.HostReadsMemory : Prop :=
  ∀ (s : State) (rest : List Input) (addr n : Nat), s.hostMoves (.readMem addr n) rest → addr + n ≤ 2 ^ 64 →
    ∃ t bs, step s = .next t ∧ t.reply = .bytes bs ∧ bs.length = n ∧
      (∀ k (h : k < bs.length),
        (s.busy = false ∨ s.active = none ∨
          ∃ i, s.active = some i ∧ i.writeFootprint.holds (addr + k) = false) →
        bs[k] = s.mem.read (addr + k)) ∧
      (∀ k (h : k < bs.length), bs[k] = s.before.read (addr + k) ∨ bs[k] = s.mem.read (addr + k)) ∧
      { t with reply := s.reply, draws := s.draws } = s.setInputs rest

/-- R217, D19, R58, R62: every step keeps that, while a command runs, its read footprint is as it was at its doorbell, and
each byte of its write footprint is as it was there or as an item performed so far wrote it. So the two values that a
racing host read can return are D19's two. The memory at the doorbell is the model's own field `before` (log 5). -/
def Obligations.RacedBytesAreOldOrWritten : Prop :=
  ∀ s t : State, s.Inv → s.RaceInv → step s = .next t → t.RaceInv

/-- The invariant of the racing read holds right after reset, and whenever no command runs (log 5). -/
def Obligations.RaceInvariantAtReset : Prop :=
  State.reset.RaceInv ∧ ∀ s : State, s.active = none → s.RaceInv

/-- R260, R261, R262 (H9): a reset, a running command or not, sets every DESC register unwritten, busy 0, active none and
pending empty, and leaves memory, and everything else, as it was. -/
def Obligations.ResetEvent : Prop :=
  ∀ (s : State) (rest : List Input), s.hostMoves .reset rest →
    ∃ t, step s = .next t ∧ (∀ k : Fin 16, t.desc[k] = .unwritten) ∧ t.busy = false ∧ t.active = none ∧
      t.pending = [] ∧
      { t with desc := s.desc, busy := s.busy, active := s.active, pending := s.pending } = s.setInputs rest

/-! ### Memory -/

/-- R53: a word in memory is little-endian: byte `k` of it is at `a + k`, and a word written so reads back. -/
def Obligations.WordsAreLittleEndian : Prop :=
  ∀ (m : Mem) (a : Nat) (v : Word), m.wf = true → a + 4 ≤ 2 ^ 64 →
    (∀ k, k < 4 → (m.writeBytes a (wordBytes v)).read (a + k) = BitVec.ofNat 8 (v.toNat / 2 ^ (8 * k))) ∧
      (m.readWord a).toNat =
        (m.read a).toNat + 2 ^ 8 * (m.read (a + 1)).toNat + 2 ^ 16 * (m.read (a + 2)).toNat +
          2 ^ 24 * (m.read (a + 3)).toNat ∧
      (m.writeBytes a (wordBytes v)).readWord a = v

/-! ### Whole commands -/

/-- R203, R206, R207: with its footprints admitted and the host silent, an accepted command ends after exactly as many
steps as it has pending items, in whatever order they are picked: busy 0, nothing active or pending, no mark.
The schedule is whatever `picks` and the free values give (log 4). -/
def Obligations.CommandRunsToItsEnd : Prop :=
  ∀ (s : State) (i : Instr), s.Inv → s.marked = false → s.inputs = [] → s.active = some i →
    admitsAll s.params i.readFootprint → admitsAll s.params i.writeFootprint →
    ∃ t, Host.Core.run Sys2Proof.core s.pending.length s = .next t ∧ State.idleAndClean t

/-- R58, R62, R209: the memory at the end of a command does not depend on the order of its items: two schedules that both
end without a fault leave the same memory.
The schedule is whatever `picks` and the free values give (log 4). -/
def Obligations.ScheduleDoesNotChangeMemory : Prop :=
  ∀ (s t t' : State) (i : Instr) (picks : List Nat) (draws : Nat), s.Inv → s.marked = false → s.inputs = [] →
    s.active = some i → Host.Core.run Sys2Proof.core s.pending.length s = .next t →
    Host.Core.run Sys2Proof.core s.pending.length { s with picks := picks, draws := draws } = .next t' →
    State.marked t = false → State.marked t' = false → State.mem t = State.mem t'

/-- R154, R140, R270: a STEP over an index space that covers the grid turns `current` into the next generation of Life in
`next`, cell by cell on the torus, and changes no byte outside `next`.
The schedule is whatever `picks` and the free values give (log 4). -/
def Obligations.StepCommandComputesNextGeneration : Prop :=
  ∀ (s : State) cur nxt g w ex ey, s.mem.wf = true → State.idleAndClean s → s.inputs = [] →
    (Instr.step cur nxt g w ex ey).WellFormed = true → w.toNat ≤ ex.toNat → g.toNat ≤ ey.toNat →
    admitsAll s.params (Instr.step cur nxt g w ex ey).readFootprint →
    admitsAll s.params (Instr.step cur nxt g w ex ey).writeFootprint →
    ∃ s1 t, exec (.step cur nxt g w ex ey) s = .next s1 ∧
      Host.Core.run Sys2Proof.core (if g.toNat = 0 then 0 else ex.toNat * ey.toNat) s1 = .next t ∧
      State.idleAndClean t ∧
      (∀ r q, r < g.toNat → q < g.toNat →
        cellAt (State.mem t) nxt.toNat w.toNat r q = aliveNext s.mem cur.toNat g.toNat w.toNat r q) ∧
      ∀ a, (Instr.step cur nxt g w ex ey).writeFootprint.holds a = false →
        (State.mem t).read a = s.mem.read a

/-- R118, R120, R121: an INIT writes the generator's word at every word-column below both W and EXTENT_X of every row below
EXTENT_Y, and leaves every other byte unchanged.
The schedule is whatever `picks` and the free values give (log 4). -/
def Obligations.InitCommandFillsItsWords : Prop :=
  ∀ (s : State) grid seed w ex ey, s.mem.wf = true → State.idleAndClean s → s.inputs = [] →
    (Instr.init grid seed w ex ey).WellFormed = true →
    admitsAll s.params (Instr.init grid seed w ex ey).writeFootprint →
    ∃ s1 t, exec (.init grid seed w ex ey) s = .next s1 ∧
      Host.Core.run Sys2Proof.core (ex.toNat * ey.toNat) s1 = .next t ∧ State.idleAndClean t ∧
      (∀ x y, x < w.toNat → x < ex.toNat → y < ey.toNat →
        (State.mem t).readWord (grid.toNat + 4 * (y * w.toNat + x)) = initWord s.params x y seed) ∧
      ∀ a, (∀ x y, x < w.toNat → x < ex.toNat → y < ey.toNat →
          a < grid.toNat + 4 * (y * w.toNat + x) ∨ grid.toNat + 4 * (y * w.toNat + x) + 4 ≤ a) →
        (State.mem t).read a = s.mem.read a

/-- R183 to R186: a RENDER writes 255 or 0 at every pixel of its window inside the grid, as the cell is alive or dead, and
leaves every pixel outside the grid, and every other byte, unchanged.
The schedule is whatever `picks` and the free values give (log 4). -/
def Obligations.RenderCommandUnpacksItsWindow : Prop :=
  ∀ (s : State) grid out g w xo yo width ey, s.mem.wf = true → State.idleAndClean s → s.inputs = [] →
    (Instr.render grid out g w xo yo width ey).WellFormed = true →
    admitsAll s.params (Instr.render grid out g w xo yo width ey).readFootprint →
    admitsAll s.params (Instr.render grid out g w xo yo width ey).writeFootprint →
    ∃ s1 t, exec (.render grid out g w xo yo width ey) s = .next s1 ∧
      Host.Core.run Sys2Proof.core (if g.toNat = 0 then 0 else width.toNat * ey.toNat) s1 = .next t ∧
      State.idleAndClean t ∧
      (∀ x y, x < width.toNat → y < ey.toNat →
        (State.mem t).read (out.toNat + y * width.toNat + x) =
          if x + xo.toNat < g.toNat ∧ y + yo.toNat < g.toNat then
            (if cellAt s.mem grid.toNat w.toNat (y + yo.toNat) (x + xo.toNat) then 255#8 else 0#8)
          else s.mem.read (out.toNat + y * width.toNat + x)) ∧
      ∀ a, a < out.toNat ∨ out.toNat + width.toNat * ey.toNat ≤ a → (State.mem t).read a = s.mem.read a

/-- R92 RUN, R201, R206: the host program RUN of an accepted command, from an idle block with the footprints admitted:
16 descriptor writes, the doorbell, every work item, and the read of STATUS that ends WAIT, which returns BUSY = 0.
That WAIT is one read that lands after the last item is the model's choice (logs 3 and 17). -/
def Obligations.RunProgramCompletes : Prop :=
  ∀ (s : State) (i : Instr), s.Inv → State.idleAndClean s → i.WellFormed = true →
    s.inputs = runProgram s.params i → admitsAll s.params i.readFootprint → admitsAll s.params i.writeFootprint →
    ∃ t, Host.Core.run Sys2Proof.core (18 + i.itemsAtStart.length) s = .next t ∧ State.idleAndClean t ∧
      State.inputs t = [] ∧ State.reply t = .word 0 ∧ State.desc t = writtenRegs (encode i)
end

