-- ==== Sys2Proof/Laws/Memory.lean ====
section
/-! SUPPORT. Laws/Memory.lean: read after write, the canonical form is kept, and canonical memories that read alike are
equal. -/

namespace Sys2Proof.Machine

/-! ### The canonical form -/

theorem Mem.wfFrom_cons {lo a : Nat} {b : Byte} {m : Mem} :
    Mem.wfFrom lo ((a, b) :: m) = true ↔
      lo ≤ a ∧ a < addressSpace ∧ b ≠ unlistedByte ∧ Mem.wfFrom (a + 1) m = true := by
  simp [Mem.wfFrom, and_assoc]

theorem Mem.wfFrom_mono {lo lo' : Nat} {m : Mem} (h : lo' ≤ lo) (hm : Mem.wfFrom lo m = true) :
    Mem.wfFrom lo' m = true := by
  cases m with
  | nil => rfl
  | cons c m =>
    obtain ⟨a, b⟩ := c
    rw [Mem.wfFrom_cons] at hm ⊢
    exact ⟨h.trans hm.1, hm.2⟩

/-- An address below the canonical part is not listed. -/
theorem Mem.read_of_lt {lo : Nat} {m : Mem} (hm : Mem.wfFrom lo m = true) {a : Nat} (h : a < lo) :
    m.read a = unlistedByte := by
  induction m generalizing lo with
  | nil => rfl
  | cons c m ih =>
    obtain ⟨k, b⟩ := c
    rw [Mem.wfFrom_cons] at hm
    have hk : a ≠ k := by omega
    rw [Mem.read, if_neg hk]
    exact ih hm.2.2.2 (by omega)

/-- A write inside the address space keeps the canonical form. -/
theorem Mem.wfFrom_write {lo : Nat} {m : Mem} (hm : Mem.wfFrom lo m = true) {a : Nat} (hlo : lo ≤ a)
    (ha : a < addressSpace) (b : Byte) : Mem.wfFrom lo (m.write a b) = true := by
  induction m generalizing lo with
  | nil =>
    rw [Mem.write]
    split
    · rfl
    · rename_i hb
      exact Mem.wfFrom_cons.2 ⟨hlo, ha, hb, rfl⟩
  | cons c m ih =>
    obtain ⟨k, d⟩ := c
    have hm' := Mem.wfFrom_cons.1 hm
    obtain ⟨h1, h2, h3, h4⟩ := hm'
    rw [Mem.write]
    split
    · rename_i hak
      split
      · exact hm
      · rename_i hb
        exact Mem.wfFrom_cons.2 ⟨hlo, ha, hb, Mem.wfFrom_cons.2 ⟨hak, h2, h3, h4⟩⟩
    · split
      · rename_i hak
        split
        · exact Mem.wfFrom_mono (by omega) h4
        · rename_i hb
          exact Mem.wfFrom_cons.2 ⟨hlo, ha, hb, hak ▸ h4⟩
      · exact Mem.wfFrom_cons.2 ⟨h1, h2, h3, ih h4 (by omega)⟩

/-- Every write inside the address space keeps the canonical form. -/
theorem Mem.wf_write {m : Mem} (hm : m.wf = true) {a : Nat} (ha : a < addressSpace) (b : Byte) :
    (m.write a b).wf = true := Mem.wfFrom_write hm (Nat.zero_le a) ha b

/-- Writing bytes that lie inside the address space keeps the canonical form. -/
theorem Mem.wf_writeBytes {m : Mem} (hm : m.wf = true) {a : Nat} {bs : List Byte}
    (ha : a + bs.length ≤ addressSpace) : (m.writeBytes a bs).wf = true := by
  induction bs generalizing m a with
  | nil => exact hm
  | cons b bs ih =>
    rw [List.length_cons] at ha
    exact ih (Mem.wf_write hm (by omega) b) (by omega)

/-! ### Reading what was written -/

theorem Mem.read_write_canonical {lo : Nat} {m : Mem} (hm : Mem.wfFrom lo m = true) (a : Nat) (b : Byte) (x : Nat) :
    (m.write a b).read x = if x = a then b else m.read x := by
  induction m generalizing lo with
  | nil =>
    by_cases hb : b = unlistedByte <;> by_cases hx : x = a <;> simp [Mem.write, Mem.read, hb, hx]
  | cons c m ih =>
    obtain ⟨k, d⟩ := c
    obtain ⟨h1, h2, h3, h4⟩ := Mem.wfFrom_cons.1 hm
    rw [Mem.write]
    by_cases hak : a < k
    · rw [if_pos hak]
      by_cases hb : b = unlistedByte
      · rw [if_pos hb]
        by_cases hx : x = a
        · rw [if_pos hx, hx, hb]
          exact Mem.read_of_lt (lo := k) (Mem.wfFrom_cons.2 ⟨le_rfl, h2, h3, h4⟩) hak
        · rw [if_neg hx]
      · rw [if_neg hb, Mem.read]
    · rw [if_neg hak]
      by_cases hak' : a = k
      · subst hak'
        rw [if_pos rfl]
        by_cases hb : b = unlistedByte
        · rw [if_pos hb]
          by_cases hx : x = a
          · rw [if_pos hx, hx, hb]
            exact Mem.read_of_lt h4 (by omega)
          · rw [if_neg hx, Mem.read, if_neg hx]
        · rw [if_neg hb, Mem.read, Mem.read]
          by_cases hx : x = a <;> simp [hx]
      · rw [if_neg hak', Mem.read, Mem.read, ih h4]
        by_cases hxk : x = k
        · simp [hxk, Ne.symm hak']
        · simp [hxk]

/-- A read after a write. -/
theorem Mem.read_write {m : Mem} (hm : m.wf = true) (a : Nat) (b : Byte) (x : Nat) :
    (m.write a b).read x = if x = a then b else m.read x := Mem.read_write_canonical hm a b x

/-- A read after a write of several bytes: outside them as before. -/
theorem Mem.read_writeBytes_outside {m : Mem} (hm : m.wf = true) {a : Nat} {bs : List Byte}
    (ha : a + bs.length ≤ addressSpace) {x : Nat} (hx : x < a ∨ a + bs.length ≤ x) :
    (m.writeBytes a bs).read x = m.read x := by
  induction bs generalizing m a with
  | nil => rfl
  | cons b bs ih =>
    rw [List.length_cons] at ha hx
    rw [Mem.writeBytes, ih (Mem.wf_write hm (by omega) b) (by omega) (by omega), Mem.read_write hm,
      if_neg (by omega)]

/-- A read after a write of several bytes: the k-th of them at its place. -/
theorem Mem.read_writeBytes_inside {m : Mem} (hm : m.wf = true) {a : Nat} {bs : List Byte}
    (ha : a + bs.length ≤ addressSpace) {k : Nat} (hk : k < bs.length) :
    (m.writeBytes a bs).read (a + k) = bs[k] := by
  induction bs generalizing m a k with
  | nil => simp at hk
  | cons b bs ih =>
    rw [List.length_cons] at ha hk
    have hw := Mem.wf_write hm (a := a) (by omega) b
    rw [Mem.writeBytes]
    cases k with
    | zero =>
      rw [Nat.add_zero, Mem.read_writeBytes_outside hw (by omega) (by omega), Mem.read_write hm]
      simp
    | succ k =>
      have := ih hw (a := a + 1) (k := k) (by omega) (by omega)
      rw [show a + (k + 1) = a + 1 + k by omega, this]
      rfl

/-- The word whose bytes these are. -/
theorem wordBytes_joined (v : Word) :
    v.extractLsb' 24 8 ++ v.extractLsb' 16 8 ++ v.extractLsb' 8 8 ++ v.extractLsb' 0 8 = v := by
  ext i hi
  simp only [BitVec.getElem_append, BitVec.getElem_extractLsb']
  split
  · simp [BitVec.getLsbD_eq_getElem, hi]
  · split
    · rw [BitVec.getLsbD_eq_getElem (by omega)]
      congr 1
      omega
    · split
      · rw [BitVec.getLsbD_eq_getElem (by omega)]
        congr 1
        omega
      · rw [BitVec.getLsbD_eq_getElem (by omega)]
        congr 1
        omega

/-- R53: the word written little-endian reads back as itself. -/
theorem Mem.readWord_writeWord {m : Mem} (hm : m.wf = true) {a : Nat} (ha : a + 4 ≤ addressSpace) (v : Word) :
    (m.writeBytes a (wordBytes v)).readWord a = v := by
  have h : ∀ k (hk : k < 4), (m.writeBytes a (wordBytes v)).read (a + k) = (wordBytes v)[k] :=
    fun k hk => Mem.read_writeBytes_inside hm ha hk
  have h0 := h 0 (by omega)
  rw [Nat.add_zero] at h0
  rw [Mem.readWord, h 3 (by omega), h 2 (by omega), h 1 (by omega), h0]
  exact wordBytes_joined v

/-- A word whose four bytes lie outside the written ones reads as before. -/
theorem Mem.readWord_writeBytes_outside {m : Mem} (hm : m.wf = true) {a : Nat} {bs : List Byte}
    (ha : a + bs.length ≤ addressSpace) {x : Nat} (hx : x + 4 ≤ a ∨ a + bs.length ≤ x) :
    (m.writeBytes a bs).readWord x = m.readWord x := by
  rw [Mem.readWord, Mem.readWord, Mem.read_writeBytes_outside hm ha (by omega),
    Mem.read_writeBytes_outside hm ha (by omega), Mem.read_writeBytes_outside hm ha (by omega),
    Mem.read_writeBytes_outside hm ha (by omega)]

/-! ### Extensionality -/

theorem Mem.ext_canonical {lo : Nat} {m m' : Mem} (hm : Mem.wfFrom lo m = true) (hm' : Mem.wfFrom lo m' = true)
    (h : ∀ a, m.read a = m'.read a) : m = m' := by
  induction m generalizing lo m' with
  | nil =>
    cases m' with
    | nil => rfl
    | cons c m' =>
      obtain ⟨k, b⟩ := c
      have h3 := (Mem.wfFrom_cons.1 hm').2.2.1
      have := h k
      simp [Mem.read] at this
      exact absurd this.symm h3
  | cons c m ih =>
    obtain ⟨k, b⟩ := c
    obtain ⟨h1, h2, h3, h4⟩ := Mem.wfFrom_cons.1 hm
    cases m' with
    | nil =>
      have := h k
      simp [Mem.read] at this
      exact absurd this h3
    | cons c' m' =>
      obtain ⟨k', b'⟩ := c'
      obtain ⟨g1, g2, g3, g4⟩ := Mem.wfFrom_cons.1 hm'
      have hkk : k = k' := by
        rcases Nat.lt_trichotomy k k' with hlt | heq | hgt
        · have := h k
          rw [Mem.read, if_pos rfl, Mem.read_of_lt (lo := k') (Mem.wfFrom_cons.2 ⟨le_rfl, g2, g3, g4⟩) hlt] at this
          exact absurd this h3
        · exact heq
        · have := h k'
          rw [Mem.read_of_lt (lo := k) (Mem.wfFrom_cons.2 ⟨le_rfl, h2, h3, h4⟩) hgt, Mem.read, if_pos rfl] at this
          exact absurd this.symm g3
      subst hkk
      have hb : b = b' := by
        have := h k
        simpa [Mem.read] using this
      subst hb
      congr 1
      refine ih h4 g4 fun a => ?_
      by_cases ha : a = k
      · subst ha
        rw [Mem.read_of_lt h4 (by omega), Mem.read_of_lt g4 (by omega)]
      · have := h a
        simpa [Mem.read, ha] using this

/-- Canonical memories that read alike are equal data. -/
theorem Mem.ext_of_read {m m' : Mem} (hm : m.wf = true) (hm' : m'.wf = true) (h : ∀ a, m.read a = m'.read a) :
    m = m' := Mem.ext_canonical hm hm' h

theorem State.reset_mem_wf : State.reset.mem.wf = true := rfl

end Sys2Proof.Machine
end

