-- ==== Sys2Proof/Laws/State.lean ====
section
/-! SUPPORT. Laws/State.lean: what each named update of State does to each field. -/

namespace Sys2Proof.Machine

/-! ### refuse -/

@[simp] theorem State.refuse_mem (s : State) (r : Refusal) : (s.refuse r).mem = s.mem := rfl
@[simp] theorem State.refuse_desc (s : State) (r : Refusal) : (s.refuse r).desc = s.desc := rfl
@[simp] theorem State.refuse_busy (s : State) (r : Refusal) : (s.refuse r).busy = s.busy := rfl
@[simp] theorem State.refuse_active (s : State) (r : Refusal) : (s.refuse r).active = s.active := rfl
@[simp] theorem State.refuse_pending (s : State) (r : Refusal) : (s.refuse r).pending = s.pending := rfl
@[simp] theorem State.refuse_faulted (s : State) (r : Refusal) : (s.refuse r).faulted = s.faulted := rfl
@[simp] theorem State.refuse_refused (s : State) (r : Refusal) : (s.refuse r).refused = some (s.refused.getD r) := rfl
@[simp] theorem State.refuse_params (s : State) (r : Refusal) : (s.refuse r).params = s.params := rfl
@[simp] theorem State.refuse_inputs (s : State) (r : Refusal) : (s.refuse r).inputs = s.inputs := rfl
@[simp] theorem State.refuse_picks (s : State) (r : Refusal) : (s.refuse r).picks = s.picks := rfl
@[simp] theorem State.refuse_draws (s : State) (r : Refusal) : (s.refuse r).draws = s.draws := rfl
@[simp] theorem State.refuse_reply (s : State) (r : Refusal) : (s.refuse r).reply = s.reply := rfl
@[simp] theorem State.refuse_before (s : State) (r : Refusal) : (s.refuse r).before = s.before := rfl

/-! ### markFault -/

@[simp] theorem State.markFault_mem (s : State) (f : Fault) : (s.markFault f).mem = s.mem := rfl
@[simp] theorem State.markFault_desc (s : State) (f : Fault) : (s.markFault f).desc = s.desc := rfl
@[simp] theorem State.markFault_busy (s : State) (f : Fault) : (s.markFault f).busy = s.busy := rfl
@[simp] theorem State.markFault_active (s : State) (f : Fault) : (s.markFault f).active = s.active := rfl
@[simp] theorem State.markFault_pending (s : State) (f : Fault) : (s.markFault f).pending = s.pending := rfl
@[simp] theorem State.markFault_faulted (s : State) (f : Fault) :
    (s.markFault f).faulted = some (s.faulted.getD f) := rfl
@[simp] theorem State.markFault_refused (s : State) (f : Fault) : (s.markFault f).refused = s.refused := rfl
@[simp] theorem State.markFault_params (s : State) (f : Fault) : (s.markFault f).params = s.params := rfl
@[simp] theorem State.markFault_inputs (s : State) (f : Fault) : (s.markFault f).inputs = s.inputs := rfl
@[simp] theorem State.markFault_picks (s : State) (f : Fault) : (s.markFault f).picks = s.picks := rfl
@[simp] theorem State.markFault_draws (s : State) (f : Fault) : (s.markFault f).draws = s.draws := rfl
@[simp] theorem State.markFault_reply (s : State) (f : Fault) : (s.markFault f).reply = s.reply := rfl
@[simp] theorem State.markFault_before (s : State) (f : Fault) : (s.markFault f).before = s.before := rfl

/-! ### writeDesc -/

@[simp] theorem State.writeDesc_mem (s : State) (i : Fin 16) (v : Word) : (s.writeDesc i v).mem = s.mem := rfl
@[simp] theorem State.writeDesc_desc (s : State) (i : Fin 16) (v : Word) :
    (s.writeDesc i v).desc = s.desc.set i (.written v) := rfl
@[simp] theorem State.writeDesc_busy (s : State) (i : Fin 16) (v : Word) : (s.writeDesc i v).busy = s.busy := rfl
@[simp] theorem State.writeDesc_active (s : State) (i : Fin 16) (v : Word) : (s.writeDesc i v).active = s.active := rfl
@[simp] theorem State.writeDesc_pending (s : State) (i : Fin 16) (v : Word) :
    (s.writeDesc i v).pending = s.pending := rfl
@[simp] theorem State.writeDesc_faulted (s : State) (i : Fin 16) (v : Word) :
    (s.writeDesc i v).faulted = s.faulted := rfl
@[simp] theorem State.writeDesc_refused (s : State) (i : Fin 16) (v : Word) :
    (s.writeDesc i v).refused = s.refused := rfl
@[simp] theorem State.writeDesc_params (s : State) (i : Fin 16) (v : Word) : (s.writeDesc i v).params = s.params := rfl
@[simp] theorem State.writeDesc_inputs (s : State) (i : Fin 16) (v : Word) : (s.writeDesc i v).inputs = s.inputs := rfl
@[simp] theorem State.writeDesc_picks (s : State) (i : Fin 16) (v : Word) : (s.writeDesc i v).picks = s.picks := rfl
@[simp] theorem State.writeDesc_draws (s : State) (i : Fin 16) (v : Word) : (s.writeDesc i v).draws = s.draws := rfl
@[simp] theorem State.writeDesc_reply (s : State) (i : Fin 16) (v : Word) : (s.writeDesc i v).reply = s.reply := rfl
@[simp] theorem State.writeDesc_before (s : State) (i : Fin 16) (v : Word) : (s.writeDesc i v).before = s.before := rfl

/-! ### resetBlock -/

@[simp] theorem State.resetBlock_mem (s : State) : (s.resetBlock).mem = s.mem := rfl
@[simp] theorem State.resetBlock_desc (s : State) : (s.resetBlock).desc = Vector.replicate 16 .unwritten := rfl
@[simp] theorem State.resetBlock_busy (s : State) : (s.resetBlock).busy = false := rfl
@[simp] theorem State.resetBlock_active (s : State) : (s.resetBlock).active = none := rfl
@[simp] theorem State.resetBlock_pending (s : State) : (s.resetBlock).pending = [] := rfl
@[simp] theorem State.resetBlock_faulted (s : State) : (s.resetBlock).faulted = s.faulted := rfl
@[simp] theorem State.resetBlock_refused (s : State) : (s.resetBlock).refused = s.refused := rfl
@[simp] theorem State.resetBlock_params (s : State) : (s.resetBlock).params = s.params := rfl
@[simp] theorem State.resetBlock_inputs (s : State) : (s.resetBlock).inputs = s.inputs := rfl
@[simp] theorem State.resetBlock_picks (s : State) : (s.resetBlock).picks = s.picks := rfl
@[simp] theorem State.resetBlock_draws (s : State) : (s.resetBlock).draws = s.draws := rfl
@[simp] theorem State.resetBlock_reply (s : State) : (s.resetBlock).reply = s.reply := rfl
@[simp] theorem State.resetBlock_before (s : State) : (s.resetBlock).before = s.before := rfl

/-! ### withPending -/

@[simp] theorem State.withPending_mem (s : State) (rest : List Item) : (s.withPending rest).mem = s.mem := rfl
@[simp] theorem State.withPending_desc (s : State) (rest : List Item) : (s.withPending rest).desc = s.desc := rfl
@[simp] theorem State.withPending_busy (s : State) (rest : List Item) :
    (s.withPending rest).busy = if rest.isEmpty then false else s.busy := rfl
@[simp] theorem State.withPending_active (s : State) (rest : List Item) :
    (s.withPending rest).active = if rest.isEmpty then none else s.active := rfl
@[simp] theorem State.withPending_pending (s : State) (rest : List Item) : (s.withPending rest).pending = rest := rfl
@[simp] theorem State.withPending_faulted (s : State) (rest : List Item) :
    (s.withPending rest).faulted = s.faulted := rfl
@[simp] theorem State.withPending_refused (s : State) (rest : List Item) :
    (s.withPending rest).refused = s.refused := rfl
@[simp] theorem State.withPending_params (s : State) (rest : List Item) : (s.withPending rest).params = s.params := rfl
@[simp] theorem State.withPending_inputs (s : State) (rest : List Item) : (s.withPending rest).inputs = s.inputs := rfl
@[simp] theorem State.withPending_picks (s : State) (rest : List Item) : (s.withPending rest).picks = s.picks := rfl
@[simp] theorem State.withPending_draws (s : State) (rest : List Item) : (s.withPending rest).draws = s.draws := rfl
@[simp] theorem State.withPending_reply (s : State) (rest : List Item) : (s.withPending rest).reply = s.reply := rfl
@[simp] theorem State.withPending_before (s : State) (rest : List Item) : (s.withPending rest).before = s.before := rfl

/-! ### start -/

@[simp] theorem State.start_mem (s : State) (i : Instr) : (s.start i).mem = s.mem := rfl
@[simp] theorem State.start_desc (s : State) (i : Instr) : (s.start i).desc = s.desc := rfl
@[simp] theorem State.start_busy (s : State) (i : Instr) :
    (s.start i).busy = if i.itemsAtStart.isEmpty then false else true := rfl
@[simp] theorem State.start_active (s : State) (i : Instr) :
    (s.start i).active = if i.itemsAtStart.isEmpty then none else some i := rfl
@[simp] theorem State.start_pending (s : State) (i : Instr) : (s.start i).pending = i.itemsAtStart := rfl
@[simp] theorem State.start_faulted (s : State) (i : Instr) : (s.start i).faulted = s.faulted := rfl
@[simp] theorem State.start_refused (s : State) (i : Instr) : (s.start i).refused = s.refused := rfl
@[simp] theorem State.start_params (s : State) (i : Instr) : (s.start i).params = s.params := rfl
@[simp] theorem State.start_inputs (s : State) (i : Instr) : (s.start i).inputs = s.inputs := rfl
@[simp] theorem State.start_picks (s : State) (i : Instr) : (s.start i).picks = s.picks := rfl
@[simp] theorem State.start_draws (s : State) (i : Instr) : (s.start i).draws = s.draws := rfl
@[simp] theorem State.start_reply (s : State) (i : Instr) : (s.start i).reply = s.reply := rfl
@[simp] theorem State.start_before (s : State) (i : Instr) : (s.start i).before = s.mem := rfl

/-! ### usePick -/

@[simp] theorem State.usePick_mem (s : State) : (s.usePick).mem = s.mem := rfl
@[simp] theorem State.usePick_desc (s : State) : (s.usePick).desc = s.desc := rfl
@[simp] theorem State.usePick_busy (s : State) : (s.usePick).busy = s.busy := rfl
@[simp] theorem State.usePick_active (s : State) : (s.usePick).active = s.active := rfl
@[simp] theorem State.usePick_pending (s : State) : (s.usePick).pending = s.pending := rfl
@[simp] theorem State.usePick_faulted (s : State) : (s.usePick).faulted = s.faulted := rfl
@[simp] theorem State.usePick_refused (s : State) : (s.usePick).refused = s.refused := rfl
@[simp] theorem State.usePick_params (s : State) : (s.usePick).params = s.params := rfl
@[simp] theorem State.usePick_inputs (s : State) : (s.usePick).inputs = s.inputs := rfl
@[simp] theorem State.usePick_picks (s : State) : (s.usePick).picks = s.picks.tail := rfl
@[simp] theorem State.usePick_draws (s : State) :
    (s.usePick).draws = if s.picks.isEmpty then s.draws + 1 else s.draws := rfl
@[simp] theorem State.usePick_reply (s : State) : (s.usePick).reply = s.reply := rfl
@[simp] theorem State.usePick_before (s : State) : (s.usePick).before = s.before := rfl

/-! ### retire -/

@[simp] theorem State.retire_mem (s : State) (p : Item) : (s.retire p).mem = s.mem := rfl
@[simp] theorem State.retire_desc (s : State) (p : Item) : (s.retire p).desc = s.desc := rfl
@[simp] theorem State.retire_busy (s : State) (p : Item) :
    (s.retire p).busy = if (s.pending.erase p).isEmpty then false else s.busy := rfl
@[simp] theorem State.retire_active (s : State) (p : Item) :
    (s.retire p).active = if (s.pending.erase p).isEmpty then none else s.active := rfl
@[simp] theorem State.retire_pending (s : State) (p : Item) : (s.retire p).pending = s.pending.erase p := rfl
@[simp] theorem State.retire_faulted (s : State) (p : Item) : (s.retire p).faulted = s.faulted := rfl
@[simp] theorem State.retire_refused (s : State) (p : Item) : (s.retire p).refused = s.refused := rfl
@[simp] theorem State.retire_params (s : State) (p : Item) : (s.retire p).params = s.params := rfl
@[simp] theorem State.retire_inputs (s : State) (p : Item) : (s.retire p).inputs = s.inputs := rfl
@[simp] theorem State.retire_picks (s : State) (p : Item) : (s.retire p).picks = s.picks := rfl
@[simp] theorem State.retire_draws (s : State) (p : Item) : (s.retire p).draws = s.draws := rfl
@[simp] theorem State.retire_reply (s : State) (p : Item) : (s.retire p).reply = s.reply := rfl
@[simp] theorem State.retire_before (s : State) (p : Item) : (s.retire p).before = s.before := rfl

/-! ### storeBytes -/

@[simp] theorem State.storeBytes_mem (s : State) (a : Nat) (bytes : List Byte) :
    (s.storeBytes a bytes).mem = s.mem.writeBytes a bytes := rfl
@[simp] theorem State.storeBytes_desc (s : State) (a : Nat) (bytes : List Byte) :
    (s.storeBytes a bytes).desc = s.desc := rfl
@[simp] theorem State.storeBytes_busy (s : State) (a : Nat) (bytes : List Byte) :
    (s.storeBytes a bytes).busy = s.busy := rfl
@[simp] theorem State.storeBytes_active (s : State) (a : Nat) (bytes : List Byte) :
    (s.storeBytes a bytes).active = s.active := rfl
@[simp] theorem State.storeBytes_pending (s : State) (a : Nat) (bytes : List Byte) :
    (s.storeBytes a bytes).pending = s.pending := rfl
@[simp] theorem State.storeBytes_faulted (s : State) (a : Nat) (bytes : List Byte) :
    (s.storeBytes a bytes).faulted = s.faulted := rfl
@[simp] theorem State.storeBytes_refused (s : State) (a : Nat) (bytes : List Byte) :
    (s.storeBytes a bytes).refused = s.refused := rfl
@[simp] theorem State.storeBytes_params (s : State) (a : Nat) (bytes : List Byte) :
    (s.storeBytes a bytes).params = s.params := rfl
@[simp] theorem State.storeBytes_inputs (s : State) (a : Nat) (bytes : List Byte) :
    (s.storeBytes a bytes).inputs = s.inputs := rfl
@[simp] theorem State.storeBytes_picks (s : State) (a : Nat) (bytes : List Byte) :
    (s.storeBytes a bytes).picks = s.picks := rfl
@[simp] theorem State.storeBytes_draws (s : State) (a : Nat) (bytes : List Byte) :
    (s.storeBytes a bytes).draws = s.draws := rfl
@[simp] theorem State.storeBytes_reply (s : State) (a : Nat) (bytes : List Byte) :
    (s.storeBytes a bytes).reply = s.reply := rfl
@[simp] theorem State.storeBytes_before (s : State) (a : Nat) (bytes : List Byte) :
    (s.storeBytes a bytes).before = s.before := rfl

/-! ### answer -/

@[simp] theorem State.answer_mem (s : State) (r : Reply) : (s.answer r).mem = s.mem := rfl
@[simp] theorem State.answer_desc (s : State) (r : Reply) : (s.answer r).desc = s.desc := rfl
@[simp] theorem State.answer_busy (s : State) (r : Reply) : (s.answer r).busy = s.busy := rfl
@[simp] theorem State.answer_active (s : State) (r : Reply) : (s.answer r).active = s.active := rfl
@[simp] theorem State.answer_pending (s : State) (r : Reply) : (s.answer r).pending = s.pending := rfl
@[simp] theorem State.answer_faulted (s : State) (r : Reply) : (s.answer r).faulted = s.faulted := rfl
@[simp] theorem State.answer_refused (s : State) (r : Reply) : (s.answer r).refused = s.refused := rfl
@[simp] theorem State.answer_params (s : State) (r : Reply) : (s.answer r).params = s.params := rfl
@[simp] theorem State.answer_inputs (s : State) (r : Reply) : (s.answer r).inputs = s.inputs := rfl
@[simp] theorem State.answer_picks (s : State) (r : Reply) : (s.answer r).picks = s.picks := rfl
@[simp] theorem State.answer_draws (s : State) (r : Reply) : (s.answer r).draws = s.draws := rfl
@[simp] theorem State.answer_reply (s : State) (r : Reply) : (s.answer r).reply = r := rfl
@[simp] theorem State.answer_before (s : State) (r : Reply) : (s.answer r).before = s.before := rfl

/-! ### useDraws -/

@[simp] theorem State.useDraws_mem (s : State) (a n : Nat) : (s.useDraws a n).mem = s.mem := rfl
@[simp] theorem State.useDraws_desc (s : State) (a n : Nat) : (s.useDraws a n).desc = s.desc := rfl
@[simp] theorem State.useDraws_busy (s : State) (a n : Nat) : (s.useDraws a n).busy = s.busy := rfl
@[simp] theorem State.useDraws_active (s : State) (a n : Nat) : (s.useDraws a n).active = s.active := rfl
@[simp] theorem State.useDraws_pending (s : State) (a n : Nat) : (s.useDraws a n).pending = s.pending := rfl
@[simp] theorem State.useDraws_faulted (s : State) (a n : Nat) : (s.useDraws a n).faulted = s.faulted := rfl
@[simp] theorem State.useDraws_refused (s : State) (a n : Nat) : (s.useDraws a n).refused = s.refused := rfl
@[simp] theorem State.useDraws_params (s : State) (a n : Nat) : (s.useDraws a n).params = s.params := rfl
@[simp] theorem State.useDraws_inputs (s : State) (a n : Nat) : (s.useDraws a n).inputs = s.inputs := rfl
@[simp] theorem State.useDraws_picks (s : State) (a n : Nat) : (s.useDraws a n).picks = s.picks := rfl
@[simp] theorem State.useDraws_draws (s : State) (a n : Nat) :
    (s.useDraws a n).draws = if (List.range n).any (fun k => s.drawnAt (a + k)) then s.draws + n else s.draws := rfl
@[simp] theorem State.useDraws_reply (s : State) (a n : Nat) : (s.useDraws a n).reply = s.reply := rfl
@[simp] theorem State.useDraws_before (s : State) (a n : Nat) : (s.useDraws a n).before = s.before := rfl

/-! ### setInputs -/

@[simp] theorem State.setInputs_mem (s : State) (l : List Input) : (s.setInputs l).mem = s.mem := rfl
@[simp] theorem State.setInputs_desc (s : State) (l : List Input) : (s.setInputs l).desc = s.desc := rfl
@[simp] theorem State.setInputs_busy (s : State) (l : List Input) : (s.setInputs l).busy = s.busy := rfl
@[simp] theorem State.setInputs_active (s : State) (l : List Input) : (s.setInputs l).active = s.active := rfl
@[simp] theorem State.setInputs_pending (s : State) (l : List Input) : (s.setInputs l).pending = s.pending := rfl
@[simp] theorem State.setInputs_faulted (s : State) (l : List Input) : (s.setInputs l).faulted = s.faulted := rfl
@[simp] theorem State.setInputs_refused (s : State) (l : List Input) : (s.setInputs l).refused = s.refused := rfl
@[simp] theorem State.setInputs_params (s : State) (l : List Input) : (s.setInputs l).params = s.params := rfl
@[simp] theorem State.setInputs_inputs (s : State) (l : List Input) : (s.setInputs l).inputs = l := rfl
@[simp] theorem State.setInputs_picks (s : State) (l : List Input) : (s.setInputs l).picks = s.picks := rfl
@[simp] theorem State.setInputs_draws (s : State) (l : List Input) : (s.setInputs l).draws = s.draws := rfl
@[simp] theorem State.setInputs_reply (s : State) (l : List Input) : (s.setInputs l).reply = s.reply := rfl
@[simp] theorem State.setInputs_before (s : State) (l : List Input) : (s.setInputs l).before = s.before := rfl

/-! ### presenting -/

@[simp] theorem State.presenting_mem (s : State) (d : Descriptor) : (s.presenting d).mem = s.mem := rfl
@[simp] theorem State.presenting_desc (s : State) (d : Descriptor) : (s.presenting d).desc = writtenRegs d := rfl
@[simp] theorem State.presenting_busy (s : State) (d : Descriptor) : (s.presenting d).busy = false := rfl
@[simp] theorem State.presenting_active (s : State) (d : Descriptor) : (s.presenting d).active = none := rfl
@[simp] theorem State.presenting_pending (s : State) (d : Descriptor) : (s.presenting d).pending = [] := rfl
@[simp] theorem State.presenting_faulted (s : State) (d : Descriptor) : (s.presenting d).faulted = none := rfl
@[simp] theorem State.presenting_refused (s : State) (d : Descriptor) : (s.presenting d).refused = none := rfl
@[simp] theorem State.presenting_params (s : State) (d : Descriptor) : (s.presenting d).params = s.params := rfl
@[simp] theorem State.presenting_inputs (s : State) (d : Descriptor) :
    (s.presenting d).inputs = ⟨0, ringDoorbell s.params⟩ :: s.inputs := rfl
@[simp] theorem State.presenting_picks (s : State) (d : Descriptor) : (s.presenting d).picks = s.picks := rfl
@[simp] theorem State.presenting_draws (s : State) (d : Descriptor) : (s.presenting d).draws = s.draws := rfl
@[simp] theorem State.presenting_reply (s : State) (d : Descriptor) : (s.presenting d).reply = s.reply := rfl
@[simp] theorem State.presenting_before (s : State) (d : Descriptor) : (s.presenting d).before = s.before := rfl

end Sys2Proof.Machine
end

