-- ==== Sys2Proof/Laws/Operands.lean ====
section
/-! SUPPORT. Laws/Operands.lean: what the operand forms, index spaces, footprints and admission mean. -/

namespace Sys2Proof

/-! ### i32 operands -/

theorem isNegative_iff {v : Word} : isNegative v = true ↔ v.toInt < 0 := by simp [isNegative]

/-- A non-negative i32 reads as its unsigned value. -/
theorem natOfI32_eq_toNat {v : Word} (h : 0 ≤ v.toInt) : natOfI32 v = v.toNat := by
  rw [natOfI32]
  have := BitVec.toInt_eq_toNat_cond v
  split at this <;> omega

theorem natOfI32_cast {v : Word} (h : 0 ≤ v.toInt) : (natOfI32 v : Int) = v.toInt := Int.toNat_of_nonneg h

theorem toInt_eq_toNat {v : Word} (h : 0 ≤ v.toInt) : v.toInt = v.toNat := by
  rw [← natOfI32_cast h, natOfI32_eq_toNat h]

/-! ### Addresses -/

@[simp] theorem joinAddr_hi_lo (a : Addr) : joinAddr (addrHi a) (addrLo a) = a := by
  apply BitVec.eq_of_toNat_eq
  have := a.isLt
  simp only [joinAddr, addrHi, addrLo, BitVec.toNat_append, BitVec.extractLsb'_toNat, Nat.shiftRight_eq_div_pow]
  rw [← Nat.shiftLeft_add_eq_or_of_lt (Nat.mod_lt _ (by decide)), Nat.shiftLeft_eq]
  omega

@[simp] theorem addrHi_join (h l : Word) : addrHi (joinAddr h l) = h := by
  apply BitVec.eq_of_toNat_eq
  have := h.isLt
  have := l.isLt
  simp only [joinAddr, addrHi, BitVec.toNat_append, BitVec.extractLsb'_toNat, Nat.shiftRight_eq_div_pow]
  rw [← Nat.shiftLeft_add_eq_or_of_lt l.isLt, Nat.shiftLeft_eq]
  omega

@[simp] theorem addrLo_join (h l : Word) : addrLo (joinAddr h l) = l := by
  apply BitVec.eq_of_toNat_eq
  have := h.isLt
  have := l.isLt
  simp only [joinAddr, addrLo, BitVec.toNat_append, BitVec.extractLsb'_toNat, Nat.shiftRight_eq_div_pow]
  rw [← Nat.shiftLeft_add_eq_or_of_lt l.isLt, Nat.shiftLeft_eq]
  omega

/-! ### The index space -/

@[simp] theorem mem_grid2D {ex ey x y : Nat} : (x, y) ∈ grid2D ex ey ↔ x < ex ∧ y < ey := by
  simp [grid2D, and_comm]

theorem grid2D_length (ex ey : Nat) : (grid2D ex ey).length = ex * ey := by
  simp [grid2D, List.length_flatMap, Nat.mul_comm]

/-- R202: no work item stands twice in an index space. -/
theorem grid2D_nodup (ex ey : Nat) : (grid2D ex ey).Nodup := by
  rw [grid2D, List.nodup_flatMap]
  refine ⟨fun y _ => (List.nodup_range).map fun a b h => (Prod.mk.inj h).1, ?_⟩
  refine List.Pairwise.imp ?_ (List.nodup_range (n := ey))
  intro a b hab p hp hq
  simp only [List.mem_map] at hp hq
  obtain ⟨_, _, rfl⟩ := hp
  obtain ⟨_, _, h⟩ := hq
  exact hab (Prod.mk.inj h).2.symm

theorem indexSpace_nodup (i : Instr) : i.indexSpace.Nodup := by
  cases i <;> exact grid2D_nodup _ _

/-- R202, R93: what a doorbell leaves to perform is of the index space. -/
theorem itemsAtStart_sublist (i : Instr) : i.itemsAtStart.Sublist i.indexSpace := by
  rw [Instr.itemsAtStart]
  split
  · exact List.nil_sublist _
  · exact List.Sublist.refl _

/-! ### Byte ranges -/

@[simp] theorem ByteRange.holds_iff {r : ByteRange} {a : Nat} : r.holds a = true ↔ r.lo ≤ a ∧ a < r.hi := by
  simp [ByteRange.holds]

theorem ByteRange.holds_eq_false_iff {r : ByteRange} {a : Nat} : r.holds a = false ↔ ¬(r.lo ≤ a ∧ a < r.hi) := by
  rw [← ByteRange.holds_iff, Bool.not_eq_true]

@[simp] theorem ByteRange.nonempty_iff {r : ByteRange} : r.nonempty = true ↔ r.lo < r.hi := by
  simp [ByteRange.nonempty]

theorem ByteRange.overlaps_iff {r q : ByteRange} : r.overlaps q = true ↔ ∃ a, r.holds a = true ∧ q.holds a = true := by
  simp only [ByteRange.overlaps, decide_eq_true_eq, ByteRange.holds_iff]
  constructor
  · intro h
    exact ⟨max r.lo q.lo, by omega, by omega⟩
  · rintro ⟨a, h1, h2⟩
    omega

/-! ### Admission (R50) -/

/-- `admitted(addr, n)` means: inside the address space, and every one of the `n` bytes lies in an admitted range. -/
theorem admits_iff {p : Params} {a n : Nat} :
    p.admits a n = true ↔
      a + n ≤ addressSpace ∧ ∀ k, k < n → ∃ r ∈ p.admitted, r.lo ≤ a + k ∧ a + k < r.hi := by
  simp [Params.admits, ByteRange.holds]

/-- Admission is bytewise. -/
theorem admits_of_bytes {p : Params} {a n : Nat} (h0 : 0 < n) (h : ∀ k, k < n → p.admits (a + k) 1 = true) :
    p.admits a n = true := by
  rw [admits_iff]
  refine ⟨?_, fun k hk => ?_⟩
  · have := (admits_iff.1 (h (n - 1) (by omega))).1
    omega
  · simpa using (admits_iff.1 (h k hk)).2 0 (by omega)

/-- R247: no access of the list is turned away exactly when each is admitted. -/
theorem firstUnadmitted_eq_none_iff {p : Params} {l : List (Nat × Nat)} :
    firstUnadmitted p l = none ↔ ∀ c ∈ l, p.admits c.1 c.2 = true := by
  induction l with
  | nil => simp [firstUnadmitted]
  | cons c l ih =>
    obtain ⟨a, n⟩ := c
    rw [firstUnadmitted]
    split <;> rename_i h <;> simp [h, ih]

/-- R247: the access recorded is the first that is not admitted. -/
theorem firstUnadmitted_append {p : Params} {l l' : List (Nat × Nat)} {a n : Nat}
    (h : ∀ c ∈ l, p.admits c.1 c.2 = true) (ha : p.admits a n = false) :
    firstUnadmitted p (l ++ (a, n) :: l') = some a := by
  induction l with
  | nil => simp [firstUnadmitted, ha]
  | cons c l ih =>
    obtain ⟨b, k⟩ := c
    have hc := h (b, k) (by simp)
    have hl := ih fun c hc => h c (by simp [hc])
    simp only [List.cons_append, firstUnadmitted, hc, if_true, hl]

/-- What `guardedStore` can answer. -/
theorem guardedStore_cases (p : Params) (l : List (Nat × Nat)) (a : Nat) (bs : List Byte) :
    ((∀ c ∈ l, p.admits c.1 c.2 = true) ∧ guardedStore p l a bs = .store a bs) ∨
      ∃ b n, (b, n) ∈ l ∧ p.admits b n = false ∧ guardedStore p l a bs = .unadmitted b := by
  rw [guardedStore]
  cases h : firstUnadmitted p l with
  | none => exact .inl ⟨firstUnadmitted_eq_none_iff.1 h, rfl⟩
  | some b =>
    refine .inr ?_
    induction l with
    | nil => simp [firstUnadmitted] at h
    | cons c l ih =>
      obtain ⟨k, n⟩ := c
      rw [firstUnadmitted] at h
      split at h
      · obtain ⟨b', n', hm, hr⟩ := ih h
        exact ⟨b', n', List.mem_cons_of_mem _ hm, hr⟩
      · rename_i hk
        obtain rfl := Option.some.inj h
        exact ⟨k, n, List.mem_cons_self, by simpa using hk, rfl⟩

/-- All accesses admitted: the item stores. -/
theorem guardedStore_admitted {p : Params} {l : List (Nat × Nat)} (h : ∀ c ∈ l, p.admits c.1 c.2 = true) (a : Nat)
    (bs : List Byte) : guardedStore p l a bs = .store a bs := by
  rw [guardedStore, firstUnadmitted_eq_none_iff.2 h]

@[simp] theorem wordBytes_length (v : Word) : (wordBytes v).length = 4 := rfl

/-! ### The checks (R236 to R241) -/

/-- A submission passes exactly when none of its six checks fails. -/
theorem submissionCheck_eq_none_iff {i : Instr} :
    submissionCheck i = none ↔
      hasNegativeParam i = false ∧ hasGridNotMult32 i = false ∧ hasWidthMismatch i = false ∧
        hasMisalignedWordBuffer i = false ∧ hasFootprintOverflow i = false ∧ hasBufferOverlap i = false := by
  rw [submissionCheck]
  split
  · simp [*]
  · split
    · simp [*]
    · split
      · simp [*]
      · split
        · simp [*]
        · split
          · simp [*]
          · split
            · simp [*]
            · simp_all

theorem ByteRange.overflows_eq_false_iff {r : ByteRange} : r.overflows = false ↔ (r.lo < r.hi → r.hi ≤ addressSpace) := by
  simp [ByteRange.overflows, ByteRange.nonempty]

end Sys2Proof
end

