-- ==== Sys2Proof/Laws/WellFormed.lean ====
section
/-! SUPPORT. Laws/WellFormed.lean: what a well-formed command's operands satisfy. -/

namespace Sys2Proof

theorem wellFormed_iff {i : Instr} : i.WellFormed = true ↔ submissionCheck i = none := by simp [Instr.WellFormed]

/-- R236, R239, R240: the operands of an accepted INIT. -/
theorem wellFormed_init {grid : Addr} {seed w ex ey : Word} :
    (Instr.init grid seed w ex ey).WellFormed = true ↔
      0 ≤ w.toInt ∧ grid.toNat % 4 = 0 ∧
        (0 < ex.toNat → 0 < ey.toNat → 0 < w.toNat → grid.toNat + 4 * ey.toNat * w.toNat ≤ addressSpace) := by
  rw [wellFormed_iff, submissionCheck_eq_none_iff]
  simp only [hasNegativeParam, Instr.i32Operands, hasGridNotMult32, Instr.gridShape, hasWidthMismatch,
    hasMisalignedWordBuffer, Instr.wordBuffers, hasFootprintOverflow, hasBufferOverlap, Instr.readFootprint,
    Bool.or_eq_false_iff, ByteRange.overflows_eq_false_iff, List.any_cons, List.any_nil]
  constructor
  · rintro ⟨h1, -, -, h4, ⟨-, h5⟩, -⟩
    have hw : 0 ≤ w.toInt := by simpa [isNegative] using h1
    refine ⟨hw, by simpa using h4, fun hx hy hw0 => ?_⟩
    rw [Instr.writeFootprint, if_neg (by omega)] at h5
    rw [natOfI32_eq_toNat hw] at h5
    refine h5 ?_
    have : 0 < 4 * ey.toNat * w.toNat := by positivity
    show grid.toNat < grid.toNat + 4 * ey.toNat * w.toNat
    omega
  · rintro ⟨hw, hg, h5⟩
    refine ⟨by simp [isNegative, hw], trivial, trivial, by simp [hg], ⟨fun h => absurd h (by simp), ?_⟩, ?_⟩
    · rw [Instr.writeFootprint]
      split
      · intro h
        exact absurd h (by simp)
      · intro h
        rw [natOfI32_eq_toNat hw] at h ⊢
        have h' : 0 < 4 * ey.toNat * w.toNat := by
          have : grid.toNat < grid.toNat + 4 * ey.toNat * w.toNat := h
          omega
        refine h5 (by omega) ?_ ?_
        · rcases Nat.eq_zero_or_pos ey.toNat with he | he
          · simp [he] at h'
          · exact he
        · exact Nat.pos_of_mul_pos_left h'
    · simp [ByteRange.overlaps]

/-- R236 to R241: the operands of an accepted STEP. -/
theorem wellFormed_step {cur nxt : Addr} {g w ex ey : Word} (h : (Instr.step cur nxt g w ex ey).WellFormed = true) :
    0 ≤ g.toInt ∧ 0 ≤ w.toInt ∧ g.toNat = 32 * w.toNat ∧ cur.toNat % 4 = 0 ∧ nxt.toNat % 4 = 0 ∧
      (0 < w.toNat → cur.toNat + 4 * g.toNat * w.toNat ≤ addressSpace ∧
        nxt.toNat + 4 * g.toNat * w.toNat ≤ addressSpace) ∧
      ∀ a, ¬(cur.toNat ≤ a ∧ a < cur.toNat + 4 * g.toNat * w.toNat ∧
        nxt.toNat ≤ a ∧ a < nxt.toNat + 4 * g.toNat * w.toNat) := by
  rw [wellFormed_iff, submissionCheck_eq_none_iff] at h
  obtain ⟨h1, h2, h3, h4, h5, h6⟩ := h
  have hn : 0 ≤ g.toInt ∧ 0 ≤ w.toInt := by simpa [hasNegativeParam, Instr.i32Operands, isNegative] using h1
  obtain ⟨hg, hw⟩ := hn
  have h2' : g.toNat % 32 = 0 := by
    simpa [hasGridNotMult32, Instr.gridShape, natOfI32_eq_toNat hg] using h2
  have h3' : w.toNat = g.toNat / 32 := by
    simpa [hasWidthMismatch, Instr.gridShape, natOfI32_eq_toNat hg, natOfI32_eq_toNat hw] using h3
  have h4' : cur.toNat % 4 = 0 ∧ nxt.toNat % 4 = 0 := by
    simpa [hasMisalignedWordBuffer, Instr.wordBuffers] using h4
  rw [hasFootprintOverflow, Bool.or_eq_false_iff, ByteRange.overflows_eq_false_iff,
    ByteRange.overflows_eq_false_iff] at h5
  simp only [Instr.readFootprint, Instr.writeFootprint, natOfI32_eq_toNat hg, natOfI32_eq_toNat hw] at h5
  have hgw : g.toNat = 32 * w.toNat := by omega
  refine ⟨hg, hw, hgw, h4'.1, h4'.2, fun h0 => ?_, fun a ha => ?_⟩
  · have : 0 < 4 * g.toNat * w.toNat := by rw [hgw]; positivity
    exact ⟨h5.1 (by omega), h5.2 (by omega)⟩
  · have : hasBufferOverlap (.step cur nxt g w ex ey) = true := by
      rw [hasBufferOverlap, ByteRange.overlaps_iff]
      refine ⟨a, ?_, ?_⟩ <;>
        simp only [ByteRange.holds_iff, Instr.readFootprint, Instr.writeFootprint, natOfI32_eq_toNat hg,
          natOfI32_eq_toNat hw] <;> omega
    rw [h6] at this
    exact Bool.noConfusion this

/-- R236 to R241: the operands of an accepted RENDER. -/
theorem wellFormed_render {grid out : Addr} {g w xo yo width ey : Word}
    (h : (Instr.render grid out g w xo yo width ey).WellFormed = true) :
    0 ≤ g.toInt ∧ 0 ≤ w.toInt ∧ 0 ≤ xo.toInt ∧ 0 ≤ yo.toInt ∧ 0 ≤ width.toInt ∧ g.toNat = 32 * w.toNat ∧
      grid.toNat % 4 = 0 ∧
      (0 < w.toNat → grid.toNat + 4 * g.toNat * w.toNat ≤ addressSpace) ∧
      (0 < width.toNat → 0 < ey.toNat → out.toNat + width.toNat * ey.toNat ≤ addressSpace) ∧
      ∀ a, ¬(grid.toNat ≤ a ∧ a < grid.toNat + 4 * g.toNat * w.toNat ∧
        out.toNat ≤ a ∧ a < out.toNat + width.toNat * ey.toNat) := by
  rw [wellFormed_iff, submissionCheck_eq_none_iff] at h
  obtain ⟨h1, h2, h3, h4, h5, h6⟩ := h
  have hn : 0 ≤ g.toInt ∧ 0 ≤ w.toInt ∧ 0 ≤ xo.toInt ∧ 0 ≤ yo.toInt ∧ 0 ≤ width.toInt := by
    simpa [hasNegativeParam, Instr.i32Operands, isNegative] using h1
  obtain ⟨hg, hw, hxo, hyo, hwd⟩ := hn
  have h2' : g.toNat % 32 = 0 := by
    simpa [hasGridNotMult32, Instr.gridShape, natOfI32_eq_toNat hg] using h2
  have h3' : w.toNat = g.toNat / 32 := by
    simpa [hasWidthMismatch, Instr.gridShape, natOfI32_eq_toNat hg, natOfI32_eq_toNat hw] using h3
  have h4' : grid.toNat % 4 = 0 := by simpa [hasMisalignedWordBuffer, Instr.wordBuffers] using h4
  rw [hasFootprintOverflow, Bool.or_eq_false_iff, ByteRange.overflows_eq_false_iff,
    ByteRange.overflows_eq_false_iff] at h5
  simp only [Instr.readFootprint, Instr.writeFootprint, natOfI32_eq_toNat hg, natOfI32_eq_toNat hw,
    natOfI32_eq_toNat hwd] at h5
  have hgw : g.toNat = 32 * w.toNat := by omega
  refine ⟨hg, hw, hxo, hyo, hwd, hgw, h4', fun h0 => ?_, fun h0 h0' => ?_, fun a ha => ?_⟩
  · have : 0 < 4 * g.toNat * w.toNat := by rw [hgw]; positivity
    exact h5.1 (by omega)
  · have : 0 < width.toNat * ey.toNat := by positivity
    exact h5.2 (by omega)
  · have : hasBufferOverlap (.render grid out g w xo yo width ey) = true := by
      rw [hasBufferOverlap, ByteRange.overlaps_iff]
      refine ⟨a, ?_, ?_⟩ <;>
        simp only [ByteRange.holds_iff, Instr.readFootprint, Instr.writeFootprint, natOfI32_eq_toNat hg,
          natOfI32_eq_toNat hw, natOfI32_eq_toNat hwd] <;> omega
    rw [h6] at this
    exact Bool.noConfusion this

end Sys2Proof
end

