-- ==== Sys2Proof/Laws/Ops.lean ====
section
/-! SUPPORT. Laws/Ops.lean: what each shared operation can do, said once: picking an item, performing it, submitting a
command, one step of a command. -/

namespace Sys2Proof.Machine

/-! ### Picking an item (R204) -/

theorem pickItem_mem {k : Nat} {l : List Item} {p : Item} (h : pickItem k l = some p) : p ∈ l := by
  match l, h with
  | [q], h => simp [pickItem] at h; simp [h]
  | q :: r :: ps, h => exact List.mem_of_getElem? h

theorem pickItem_isSome {k : Nat} {l : List Item} (h : l ≠ []) : ∃ p, pickItem k l = some p := by
  match l, h with
  | [q], _ => exact ⟨q, rfl⟩
  | q :: r :: ps, _ =>
    have hk : k % (ps.length + 2) < (q :: r :: ps).length := by
      simpa using Nat.mod_lt k (Nat.succ_pos (ps.length + 1))
    exact ⟨_, List.getElem?_eq_getElem hk⟩

/-- The item in turn is a pending one. -/
theorem State.nextItem_mem {s : State} {p : Item} (h : s.nextItem = some p) : p ∈ s.pending := pickItem_mem h

/-- While items are pending, one of them is in turn. -/
theorem State.nextItem_isSome {s : State} (h : s.pending ≠ []) : ∃ p, s.nextItem = some p := pickItem_isSome h

theorem State.nextItem_eq_none_iff {s : State} : s.nextItem = none ↔ s.pending = [] := by
  constructor
  · intro h
    by_contra hp
    obtain ⟨p, hp⟩ := State.nextItem_isSome hp
    simp [h] at hp
  · intro h
    simp [State.nextItem, h, pickItem]

/-! ### Completion (R206) -/

@[simp] theorem State.withPending_nil_active (s : State) : (s.withPending []).active = none := rfl

@[simp] theorem State.withPending_nil_busy (s : State) : (s.withPending []).busy = false := rfl

theorem State.withPending_active_of_ne {s : State} {l : List Item} (h : l ≠ []) :
    (s.withPending l).active = s.active := by
  cases l with
  | nil => exact absurd rfl h
  | cons p l => rfl

theorem State.withPending_busy_of_ne {s : State} {l : List Item} (h : l ≠ []) : (s.withPending l).busy = s.busy := by
  cases l with
  | nil => exact absurd rfl h
  | cons p l => rfl

/-! ### One step of a command (R201, R203) -/

/-- R203: what performing a work item can do. -/
theorem performItem_cases (i : Instr) (eff : Item → ItemEffect) (s : State) :
    (s.pending = [] ∧ performItem i eff s = .next (s.withPending [])) ∨
      ∃ p, s.nextItem = some p ∧ p ∈ s.pending ∧ performItem i eff s = .next (s.finishItem i p (eff p)) := by
  rw [performItem]
  cases h : s.nextItem with
  | none => exact .inl ⟨State.nextItem_eq_none_iff.1 h, rfl⟩
  | some p => exact .inr ⟨p, rfl, State.nextItem_mem h, rfl⟩

/-- The item in turn is performed. -/
theorem performItem_of_nextItem {i : Instr} {eff : Item → ItemEffect} {s : State} {p : Item}
    (h : s.nextItem = some p) : performItem i eff s = .next (s.finishItem i p (eff p)) := by rw [performItem, h]

/-- R201: what a submission can do. -/
theorem submit_cases (i : Instr) (s : State) :
    (s.active ≠ none ∧ submit i s = .next (s.refuse (.rejected .doorbellWhileBusy (.command i)))) ∨
      (∃ c, s.active = none ∧ submissionCheck i = some c ∧
        submit i s = .next (s.refuse (.rejected c (.command i)))) ∨
      (s.active = none ∧ i.WellFormed = true ∧ submit i s = .next (s.start i)) := by
  rw [submit]
  cases ha : s.active with
  | some j => exact .inl ⟨by simp, rfl⟩
  | none =>
    cases hc : submissionCheck i with
    | some c => exact .inr (.inl ⟨c, rfl, rfl, rfl⟩)
    | none => exact .inr (.inr ⟨rfl, wellFormed_iff.2 hc, rfl⟩)

theorem commandStep_active {i : Instr} {eff : Item → ItemEffect} {s : State} (h : s.active = some i) :
    commandStep i eff s = performItem i eff s := by rw [commandStep, if_pos h]

theorem commandStep_inactive {i : Instr} {eff : Item → ItemEffect} {s : State} (h : s.active ≠ some i) :
    commandStep i eff s = submit i s := by rw [commandStep, if_neg h]

/-- One step of a command, the item in turn being `p`. -/
theorem commandStep_item {i : Instr} {eff : Item → ItemEffect} {s : State} {p : Item} (h : s.active = some i)
    (hp : s.nextItem = some p) : commandStep i eff s = .next (s.finishItem i p (eff p)) := by
  rw [commandStep_active h, performItem_of_nextItem hp]

/-- An idle block, submission: the failing check's refusal, or the start. -/
theorem commandStep_idle {i : Instr} {eff : Item → ItemEffect} {s : State} (h : s.active = none) :
    commandStep i eff s = .next (match submissionCheck i with
      | some c => s.refuse (.rejected c (.command i))
      | none => s.start i) := by
  rw [commandStep_inactive (by simp [h]), submit, h]
  cases submissionCheck i <;> rfl

/-- Everything one step of a command can do: refuse its submission, start, perform the item in turn, or (with nothing
pending) complete. -/
theorem commandStep_cases (i : Instr) (eff : Item → ItemEffect) (s : State) :
    (s.active ≠ some i ∧ ∃ c, commandStep i eff s = .next (s.refuse (.rejected c (.command i)))) ∨
      (s.active = none ∧ i.WellFormed = true ∧ commandStep i eff s = .next (s.start i)) ∨
      (s.active = some i ∧ s.pending = [] ∧ commandStep i eff s = .next (s.withPending [])) ∨
      ∃ p, s.active = some i ∧ s.nextItem = some p ∧ commandStep i eff s = .next (s.finishItem i p (eff p)) := by
  by_cases h : s.active = some i
  · rw [commandStep_active h]
    rcases performItem_cases i eff s with ⟨hp, he⟩ | ⟨p, hp, -, he⟩
    · exact .inr (.inr (.inl ⟨h, hp, he⟩))
    · exact .inr (.inr (.inr ⟨p, h, hp, he⟩))
  · rw [commandStep_inactive h]
    rcases submit_cases i s with ⟨-, he⟩ | ⟨c, -, -, he⟩ | ⟨ha, hw, he⟩
    · exact .inl ⟨h, _, he⟩
    · exact .inl ⟨h, _, he⟩
    · exact .inr (.inl ⟨ha, hw, he⟩)

/-! ### The performed item -/

section
variable (s : State) (i : Instr) (p : Item) (e : ItemEffect)

@[simp] theorem State.finishItem_desc : (s.finishItem i p e).desc = s.desc := by cases e <;> rfl
@[simp] theorem State.finishItem_params : (s.finishItem i p e).params = s.params := by cases e <;> rfl
@[simp] theorem State.finishItem_inputs : (s.finishItem i p e).inputs = s.inputs := by cases e <;> rfl
@[simp] theorem State.finishItem_reply : (s.finishItem i p e).reply = s.reply := by cases e <;> rfl
@[simp] theorem State.finishItem_before : (s.finishItem i p e).before = s.before := by cases e <;> rfl
@[simp] theorem State.finishItem_refused : (s.finishItem i p e).refused = s.refused := by cases e <;> rfl

@[simp] theorem State.finishItem_skip_mem : (s.finishItem i p .skip).mem = s.mem := rfl
@[simp] theorem State.finishItem_store_mem (a : Nat) (bs : List Byte) :
    (s.finishItem i p (.store a bs)).mem = s.mem.writeBytes a bs := rfl
@[simp] theorem State.finishItem_unadmitted_mem (a : Nat) : (s.finishItem i p (.unadmitted a)).mem = s.mem := rfl

@[simp] theorem State.finishItem_skip_faulted : (s.finishItem i p .skip).faulted = s.faulted := rfl
@[simp] theorem State.finishItem_store_faulted (a : Nat) (bs : List Byte) :
    (s.finishItem i p (.store a bs)).faulted = s.faulted := rfl

@[simp] theorem State.finishItem_skip_pending : (s.finishItem i p .skip).pending = s.pending.erase p := rfl
@[simp] theorem State.finishItem_store_pending (a : Nat) (bs : List Byte) :
    (s.finishItem i p (.store a bs)).pending = s.pending.erase p := rfl
end

/-- R203: an item's store that lies in memory keeps the canonical form. -/
theorem State.finishItem_mem_wf {s : State} {i : Instr} {p : Item} {e : ItemEffect} (h : s.mem.wf = true)
    (he : ∀ a bs, e = .store a bs → a + bs.length ≤ addressSpace) : (s.finishItem i p e).mem.wf = true := by
  cases e with
  | skip => exact h
  | store a bs => exact Mem.wf_writeBytes h (he a bs rfl)
  | unadmitted a => exact h

end Sys2Proof.Machine
end

