-- ==== Sys2Proof/Laws/Commands.lean ====
section
/-! SUPPORT. Laws/Commands.lean: the three commands' items, and `exec` said once for all of them. -/

namespace Sys2Proof.Machine

/-- Every arm of `exec` is one step of its command. -/
theorem exec_eq (i : Instr) (s : State) : exec i s = commandStep i (itemOf i s.params s.mem) s := by
  cases i <;> rfl

/-- Everything `exec` can do. It always answers a next state. -/
theorem exec_cases (i : Instr) (s : State) :
    (s.active ≠ some i ∧ ∃ c, exec i s = .next (s.refuse (.rejected c (.command i)))) ∨
      (s.active = none ∧ i.WellFormed = true ∧ exec i s = .next (s.start i)) ∨
      (s.active = some i ∧ s.pending = [] ∧ exec i s = .next (s.withPending [])) ∨
      ∃ p, s.active = some i ∧ s.nextItem = some p ∧
        exec i s = .next (s.finishItem i p (itemOf i s.params s.mem p)) := by
  rw [exec_eq]
  exact commandStep_cases i _ s

/-- The work item in turn is performed. -/
theorem exec_item {i : Instr} {s : State} {p : Item} (h : s.active = some i) (hp : s.nextItem = some p) :
    exec i s = .next (s.finishItem i p (itemOf i s.params s.mem p)) := by
  rw [exec_eq, commandStep_item h hp]

/-- A submission to an idle block. -/
theorem exec_idle {i : Instr} {s : State} (h : s.active = none) :
    exec i s = .next (match submissionCheck i with
      | some c => s.refuse (.rejected c (.command i))
      | none => s.start i) := by
  rw [exec_eq]
  exact commandStep_idle h

/-! ### INIT (R118, R119) -/

theorem initItem_skip {p : Params} {grid : Addr} {seed w : Word} {it : Item} (h : natOfI32 w ≤ it.1) :
    initItem p grid seed w it = .skip := by rw [initItem, if_pos h]

theorem initItem_inRange {p : Params} {grid : Addr} {seed w : Word} {it : Item} (h : it.1 < natOfI32 w) :
    initItem p grid seed w it =
      guardedStore p [(initStoreAddr grid w it, 4)] (initStoreAddr grid w it)
        (wordBytes (initWord p it.1 it.2 seed)) := by
  rw [initItem, if_neg (by omega)]

/-! ### STEP (R140, R141) -/

theorem stepItem_skip {p : Params} {m : Mem} {cur nxt : Addr} {g w : Word} {it : Item}
    (h : natOfI32 g ≤ it.2 ∨ natOfI32 w ≤ it.1) : stepItem p m cur nxt g w it = .skip := by rw [stepItem, if_pos h]

theorem stepItem_inRange {p : Params} {m : Mem} {cur nxt : Addr} {g w : Word} {it : Item} (h1 : it.1 < natOfI32 w)
    (h2 : it.2 < natOfI32 g) :
    stepItem p m cur nxt g w it =
      guardedStore p
        ((hoodAddrs cur.toNat (natOfI32 g) (natOfI32 w) it.1 it.2).map (fun r => (r, 4)) ++
          [(stepStoreAddr nxt w it, 4)])
        (stepStoreAddr nxt w it)
        (wordBytes (nextWord (readHood m cur.toNat (natOfI32 g) (natOfI32 w) it.1 it.2))) := by
  rw [stepItem, if_neg (by omega)]

/-! ### RENDER (R180, R183) -/

theorem renderItem_skip {p : Params} {m : Mem} {grid out : Addr} {g w xo yo width : Word} {it : Item}
    (h : natOfI32 g ≤ it.1 + natOfI32 xo ∨ natOfI32 g ≤ it.2 + natOfI32 yo) :
    renderItem p m grid out g w xo yo width it = .skip := by rw [renderItem, if_pos h]

theorem renderItem_inRange {p : Params} {m : Mem} {grid out : Addr} {g w xo yo width : Word} {it : Item}
    (h1 : it.1 + natOfI32 xo < natOfI32 g) (h2 : it.2 + natOfI32 yo < natOfI32 g) :
    renderItem p m grid out g w xo yo width it =
      guardedStore p
        [(renderReadAddr grid w (it.1 + natOfI32 xo) (it.2 + natOfI32 yo), 4), (renderStoreAddr out width it, 1)]
        (renderStoreAddr out width it)
        [pixelByte (pixelBit (m.readWord (renderReadAddr grid w (it.1 + natOfI32 xo) (it.2 + natOfI32 yo)))
          (it.1 + natOfI32 xo))] := by
  rw [renderItem, if_neg (by omega)]

/-- R184: `(wd >> (gx % 32)) & 1` is bit `gx % 32`. -/
theorem pixelBit_eq (wd : Word) (gx : Nat) : pixelBit wd gx = wd.getLsbD (gx % 32) := by
  rw [pixelBit, Bool.eq_iff_iff, decide_eq_true_eq]
  constructor
  · intro h
    have := congrArg (fun v : Word => v.getLsbD 0) h
    simpa using this
  · intro h
    ext i hi
    by_cases h0 : i = 0
    · subst h0
      simpa using h
    · simp [h0, BitVec.getElem_one]

/-! ### What an item can be -/

/-- An item's store lies in memory: it was admitted (R244). -/
theorem itemOf_store_bound {i : Instr} {p : Params} {m : Mem} {it : Item} {a : Nat} {bs : List Byte}
    (h : itemOf i p m it = .store a bs) : a + bs.length ≤ addressSpace := by
  have key : ∀ {l : List (Nat × Nat)} {a' : Nat} {bs' : List Byte}, (a', bs'.length) ∈ l →
      guardedStore p l a' bs' = .store a bs → a + bs.length ≤ addressSpace := by
    intro l a' bs' hm hg
    rcases guardedStore_cases p l a' bs' with ⟨hl, he⟩ | ⟨b, n, -, -, he⟩
    · rw [he] at hg
      obtain ⟨rfl, rfl⟩ := ItemEffect.store.inj hg
      exact (admits_iff.1 (hl _ hm)).1
    · rw [he] at hg
      exact ItemEffect.noConfusion hg
  cases i with
  | init grid seed w ex ey =>
    rw [itemOf, initItem] at h
    split at h
    · exact ItemEffect.noConfusion h
    · exact key (by simp) h
  | step cur nxt g w ex ey =>
    rw [itemOf, stepItem] at h
    split at h
    · exact ItemEffect.noConfusion h
    · exact key (by simp) h
  | render grid out g w xo yo width ey =>
    rw [itemOf, renderItem] at h
    split at h
    · exact ItemEffect.noConfusion h
    · exact key (by simp) h

end Sys2Proof.Machine
end

