-- ==== Sys2Proof/Laws/Generator.lean ====
section
/-! SUPPORT. Laws/Generator.lean: the generator's constants as numbers (R111, R116), so that no proof unfolds them. -/

namespace Sys2Proof.Machine

theorem pcgMul_toNat : pcgMul.toNat = 747796405 := by decide
theorem pcgInc_toNat : pcgInc.toNat = 2891336453 := by decide
theorem pcgOutMul_toNat : pcgOutMul.toNat = 277803737 := by decide
theorem mixColumn_toNat : mixColumn.toNat = 2654435761 := by decide
theorem mixRow_toNat : mixRow.toNat = 0x9E3779B9 := by decide

/-- R113: the shift amount is the top four bits plus 4. -/
theorem genShift_eq (s : Word) : genShift s = s.toNat / 2 ^ 28 + 4 := by
  rw [genShift, BitVec.toNat_ushiftRight, Nat.shiftRight_eq_div_pow]

end Sys2Proof.Machine
end

