-- ==== Sys2Proof/Laws/PerInstr.lean ====
section
/-! SUPPORT. Laws/PerInstr.lean: what holds of every command, one lemma per constructor. -/

namespace Sys2Proof.Laws.ReservedZero

/-- R83, R88, R91: the encoding of a command has 0 in every word reserved for its opcode, and 0, 1 or 2 in `DESC[0]`. -/
def Statement (i : Instr) : Prop :=
  match i with
  | .init _ _ _ _ _ => (encode i)[0] = 0#32 ∧ ∀ k ∈ reservedOfInit, (encode i)[k] = 0#32
  | .step _ _ _ _ _ _ => (encode i)[0] = 1#32 ∧ ∀ k ∈ reservedOfStep, (encode i)[k] = 0#32
  | .render _ _ _ _ _ _ _ _ => (encode i)[0] = 2#32 ∧ ∀ k ∈ reservedOfRender, (encode i)[k] = 0#32

theorem init (grid : Addr) (seed w ex ey : Word) : Statement (.init grid seed w ex ey) := by
  refine ⟨rfl, fun k hk => ?_⟩
  fin_cases hk <;> rfl

theorem step (cur nxt : Addr) (g w ex ey : Word) : Statement (.step cur nxt g w ex ey) := by
  refine ⟨rfl, fun k hk => ?_⟩
  fin_cases hk <;> rfl

theorem render (grid out : Addr) (g w xo yo width ey : Word) :
    Statement (.render grid out g w xo yo width ey) := by
  refine ⟨rfl, fun k hk => ?_⟩
  fin_cases hk <;> rfl

end Sys2Proof.Laws.ReservedZero
end

