-- ==== Sys2Proof/Laws/Step.lean ====
section
/-! SUPPORT. Laws/Step.lean: what a host action and a step of the machine can do, said once. -/

namespace Sys2Proof.Machine

/-! ### Registers -/

/-- R24, R242: exactly the eighteen registers answer a host access, each at its own address and 32 bits wide. -/
theorem regAt_regAddr (p : Params) (r : Reg) : regAt p (regAddr p r) 32 = some r := by
  cases r with
  | desc i =>
    have hi := i.isLt
    have h1 : p.regBase + 4 * i.val - p.regBase = 4 * i.val := by omega
    simp only [regAt, regAddr, h1]
    rw [if_neg (by omega), if_neg (by omega), if_neg (by omega), dif_pos (by omega), if_pos (by omega)]
    congr 2
    exact Fin.ext (by show 4 * i.val / 4 = i.val; omega)
  | doorbell =>
    simp [regAt, regAddr]
  | status =>
    simp [regAt, regAddr]

theorem regAt_eq_some {p : Params} {addr bits : Nat} {r : Reg} (h : regAt p addr bits = some r) :
    bits = 32 ∧ addr = regAddr p r := by
  rw [regAt] at h
  split at h
  · exact absurd h (by simp)
  · rename_i h1
    have hb : bits = 32 := by omega
    have ha : p.regBase ≤ addr := by omega
    refine ⟨hb, ?_⟩
    simp only at h
    split at h
    · obtain rfl := Option.some.inj h
      simp only [regAddr]
      omega
    · split at h
      · obtain rfl := Option.some.inj h
        simp only [regAddr]
        omega
      · split at h
        · split at h
          · obtain rfl := Option.some.inj h
            simp only [regAddr]
            omega
          · exact absurd h (by simp)
        · exact absurd h (by simp)

@[simp] theorem snapshot_writtenRegs (d : Descriptor) : snapshot (writtenRegs d) = some d := by
  have h : (writtenRegs d).toList.all DescReg.isWritten = true := by simp [writtenRegs, DescReg.isWritten]
  rw [snapshot, if_pos h]
  congr 1
  ext i hi
  have : i = 0 ∨ i = 1 ∨ i = 2 ∨ i = 3 ∨ i = 4 ∨ i = 5 ∨ i = 6 ∨ i = 7 ∨ i = 8 ∨ i = 9 ∨ i = 10 ∨ i = 11 ∨ i = 12 ∨
      i = 13 ∨ i = 14 ∨ i = 15 := by omega
  rcases this with rfl | rfl | rfl | rfl | rfl | rfl | rfl | rfl | rfl | rfl | rfl | rfl | rfl | rfl | rfl | rfl <;> rfl

/-- R233: the snapshot fails when a register is unwritten. -/
theorem snapshot_unwritten {regs : Vector DescReg 16} {k : Fin 16} (h : regs[k] = .unwritten) :
    snapshot regs = none := by
  rw [snapshot, if_neg]
  intro hall
  rw [List.all_eq_true] at hall
  have := hall regs[k] (by simp)
  rw [h] at this
  exact Bool.noConfusion this

/-! ### Host accesses of the data memory (R216, R217) -/

theorem inMemory_iff {addr n : Nat} : inMemory addr n = true ↔ addr + n ≤ addressSpace := by simp [inMemory]

@[simp] theorem State.racedBy_setInputs (s : State) (l : List Input) (addr n : Nat) :
    (s.setInputs l).racedBy addr n = s.racedBy addr n := rfl

@[simp] theorem State.drawnAt_setInputs (s : State) (l : List Input) (a : Nat) :
    (s.setInputs l).drawnAt a = s.drawnAt a := rfl

/-- R216: a write races with the active command when one of its bytes lies in a footprint while busy. -/
theorem State.racedBy_eq_some_iff {s : State} {addr n : Nat} {i : Instr} :
    s.racedBy addr n = some i ↔
      s.active = some i ∧ s.busy = true ∧
        ∃ k, k < n ∧ (i.readFootprint.holds (addr + k) = true ∨ i.writeFootprint.holds (addr + k) = true) := by
  rw [State.racedBy]
  cases s.active with
  | none => simp
  | some j =>
    cases s.busy with
    | false => simp
    | true =>
      simp only [Bool.true_and, Option.some.injEq]
      constructor
      · intro h
        split at h
        · rename_i hk
          obtain rfl := Option.some.inj h
          simpa only [List.any_eq_true, List.mem_range, Bool.or_eq_true, true_and] using hk
        · exact absurd h (by simp)
      · rintro ⟨rfl, -, k, hk, hb⟩
        exact if_pos (by
          simp only [List.any_eq_true, List.mem_range, Bool.or_eq_true]
          exact ⟨k, hk, hb⟩)

/-- R217: which bytes a host read draws. -/
theorem State.drawnAt_iff {s : State} {a : Nat} :
    s.drawnAt a = true ↔ s.busy = true ∧ ∃ i, s.active = some i ∧ i.writeFootprint.holds a = true := by
  rw [State.drawnAt]
  cases s.active <;> simp

/-! ### What the host can do -/

/-- What an action of the host can do (R215): refuse, record a race, run the submitted command, or change the one thing
the action changes. -/
inductive HostEffect (a : HostAction) (s : State) : Host.Outcome State Fault Refusal → Prop where
  | refused (r : Refusal) : HostEffect a s (.next (s.refuse r))
  | race (i : Instr) (h : s.active = some i) : HostEffect a s (.next (s.markFault (.hostRace i a)))
  | command (i : Instr) (h : s.busy = false) : HostEffect a s (exec i s)
  | nothing : HostEffect a s (.next s)
  | register (k : Fin 16) (v : Word) (h : a = .writeReg (regAddr s.params (.desc k)) 32 v) :
      HostEffect a s (.next (s.writeDesc k v))
  | read (v : Word) : HostEffect a s (.next (s.answer (.word v)))
  | readBytes (addr n : Nat) (bs : List Byte) : HostEffect a s (.next ((s.useDraws addr n).answer (.bytes bs)))
  | write (addr : Nat) (bytes : List Byte) (h : a = .writeMem addr bytes) (hb : addr + bytes.length ≤ addressSpace)
      (hr : s.racedBy addr bytes.length = none) : HostEffect a s (.next (s.storeBytes addr bytes))
  | reset (h : a = .reset) : HostEffect a s (.next s.resetBlock)

theorem doorbell_effect (a : HostAction) (s : State) : HostEffect a s (doorbell a s) := by
  rw [doorbell]
  split
  · exact .refused _
  · rename_i hb
    split
    · exact .refused _
    · split
      · exact .refused _
      · exact .command _ (by simpa using hb)

/-- Every action of the host has one of these effects. -/
theorem hostStep_effect (a : HostAction) (s : State) : HostEffect a s (hostStep a s) := by
  cases a with
  | writeReg addr bits v =>
    rw [hostStep, hostWriteReg]
    split
    · exact .refused _
    · rename_i i hr
      obtain ⟨rfl, rfl⟩ := regAt_eq_some hr
      exact .register i v rfl
    · split
      · exact doorbell_effect _ _
      · exact .nothing
    · exact .nothing
  | readReg addr bits =>
    rw [hostStep, hostReadReg]
    split
    · exact .refused _
    · split
      · exact .refused _
      · exact .read _
    · exact .read _
    · exact .read _
  | writeMem addr bytes =>
    rw [hostStep, hostWriteMem]
    split
    · rename_i hm
      split
      · rename_i i hi
        exact .race i (State.racedBy_eq_some_iff.1 hi).1
      · rename_i hr
        exact .write addr bytes rfl (by simpa [inMemory] using hm) hr
    · exact .refused _
  | readMem addr n =>
    rw [hostStep, hostReadMem]
    split
    · exact .readBytes addr n _
    · exact .refused _
  | reset => exact .reset rfl

/-! ### What a step can do -/

/-- The step of an unmarked state is `advance`. -/
theorem step_unmarked {s : State} (h : s.marked = false) : step s = advance s := by
  have hs : s.faulted = none ∧ s.refused = none := by simpa [State.marked] using h
  rw [step, hs.1]
  simp only
  rw [hs.2]

/-- The host's due action is the step. -/
theorem step_of_hostMoves {s : State} {a : HostAction} {rest : List Input} (h : s.hostMoves a rest) :
    step s = hostStep a (s.setInputs rest) := by
  obtain ⟨h1, h2⟩ := h
  rw [step_unmarked h1, advance, h2]

/-- The due doorbell is the step. -/
theorem step_of_doorbell {s : State} {a : HostAction} {rest : List Input} (h : s.hostMoves a rest)
    (hd : s.isDoorbell a) : step s = doorbell a (s.setInputs rest) := by
  rw [step_of_hostMoves h]
  obtain ⟨v, rfl, hv⟩ := hd
  rw [hostStep, hostWriteReg, State.setInputs_params, regAt_regAddr]
  exact if_pos hv

/-- A silent host: the active command moves. -/
theorem step_of_silent {s : State} {i : Instr} (h : s.marked = false) (hi : s.inputs = []) (ha : s.active = some i) :
    step s = exec i s := by
  rw [step_unmarked h, advance, hi]
  show blockStep s = exec i s
  rw [blockStep, ha]

/-- A waiting host: the active command moves, and the host waits for one item less. -/
theorem step_of_waiting {s : State} {i : Instr} {n : Nat} {a : HostAction} {rest : List Input}
    (h : s.marked = false) (hi : s.inputs = ⟨n + 1, a⟩ :: rest) (ha : s.active = some i) :
    step s = exec i (s.setInputs (⟨n, a⟩ :: rest)) := by
  rw [step_unmarked h, advance, hi]
  simp only [ha]

/-- A step that answers a next state: nothing was marked, and either the host moved, or the active command did, or the
block is idle with no host action coming. -/
theorem step_next_cases {s t : State} (h : step s = .next t) :
    s.marked = false ∧
      ((∃ n a rest, s.inputs = ⟨n, a⟩ :: rest ∧ HostEffect a (s.setInputs rest) (.next t)) ∨
        (∃ i l, s.active = some i ∧ exec i (s.setInputs l) = .next t) ∨ (s.active = none ∧ t = s)) := by
  have hm : s.marked = false := by
    rw [step] at h
    split at h
    · exact absurd h (by simp)
    · rename_i hf
      split at h
      · exact absurd h (by simp)
      · rename_i hr
        simp [State.marked, hf, hr]
  refine ⟨hm, ?_⟩
  rw [step_unmarked hm, advance] at h
  split at h
  · rename_i hi
    rw [blockStep] at h
    split at h
    · rename_i i ha
      refine .inr (.inl ⟨i, s.inputs, ha, ?_⟩)
      exact h
    · rename_i ha
      exact .inr (.inr ⟨ha, (Host.Outcome.next.inj h).symm⟩)
  · rename_i a rest hi
    exact .inl ⟨0, a, rest, hi, h ▸ hostStep_effect a _⟩
  · rename_i n a rest hi
    split at h
    · exact .inl ⟨n + 1, a, rest, hi, h ▸ hostStep_effect a _⟩
    · rename_i i ha
      exact .inr (.inl ⟨i, _, ha, h⟩)

end Sys2Proof.Machine
end

