-- ==== Sys2Proof/Laws/Run.lean ====
section
/-! SUPPORT. Laws/Run.lean: where an item's store lies, that two items' stores are apart, and the one induction over the
work items of a running command. -/

namespace Sys2Proof.Machine

/-! ### Where an item stores -/

theorem guardedStore_eq_store {p : Params} {l : List (Nat × Nat)} {a b : Nat} {bs cs : List Byte}
    (h : guardedStore p l a bs = .store b cs) : a = b ∧ bs = cs := by
  rcases guardedStore_cases p l a bs with ⟨-, he⟩ | ⟨c, n, -, -, he⟩
  · exact ItemEffect.store.inj (he ▸ h)
  · exact ItemEffect.noConfusion (he ▸ h)

/-- An INIT item that stores is in range, and stores its word. -/
theorem initItem_eq_store {p : Params} {grid : Addr} {seed w : Word} {it : Item} {a : Nat} {bs : List Byte}
    (h : initItem p grid seed w it = .store a bs) :
    it.1 < natOfI32 w ∧ a = initStoreAddr grid w it ∧ bs = wordBytes (initWord p it.1 it.2 seed) := by
  rcases Nat.lt_or_ge it.1 (natOfI32 w) with hx | hx
  · rw [initItem_inRange hx] at h
    obtain ⟨rfl, rfl⟩ := guardedStore_eq_store h
    exact ⟨hx, rfl, rfl⟩
  · rw [initItem_skip hx] at h
    exact ItemEffect.noConfusion h

/-- A STEP item that stores is in range, and stores the next generation of its word. -/
theorem stepItem_eq_store {p : Params} {m : Mem} {cur nxt : Addr} {g w : Word} {it : Item} {a : Nat} {bs : List Byte}
    (h : stepItem p m cur nxt g w it = .store a bs) :
    it.1 < natOfI32 w ∧ it.2 < natOfI32 g ∧ a = stepStoreAddr nxt w it ∧
      bs = wordBytes (nextWord (readHood m cur.toNat (natOfI32 g) (natOfI32 w) it.1 it.2)) := by
  by_cases hx : natOfI32 g ≤ it.2 ∨ natOfI32 w ≤ it.1
  · rw [stepItem_skip hx] at h
    exact ItemEffect.noConfusion h
  · rw [stepItem_inRange (by omega) (by omega)] at h
    obtain ⟨rfl, rfl⟩ := guardedStore_eq_store h
    exact ⟨by omega, by omega, rfl, rfl⟩

/-- A RENDER item that stores is inside the grid, and stores its pixel. -/
theorem renderItem_eq_store {p : Params} {m : Mem} {grid out : Addr} {g w xo yo width : Word} {it : Item} {a : Nat}
    {bs : List Byte} (h : renderItem p m grid out g w xo yo width it = .store a bs) :
    it.1 + natOfI32 xo < natOfI32 g ∧ it.2 + natOfI32 yo < natOfI32 g ∧ a = renderStoreAddr out width it ∧
      bs = [pixelByte (pixelBit (m.readWord (renderReadAddr grid w (it.1 + natOfI32 xo) (it.2 + natOfI32 yo)))
        (it.1 + natOfI32 xo))] := by
  by_cases hx : natOfI32 g ≤ it.1 + natOfI32 xo ∨ natOfI32 g ≤ it.2 + natOfI32 yo
  · rw [renderItem_skip hx] at h
    exact ItemEffect.noConfusion h
  · rw [renderItem_inRange (by omega) (by omega)] at h
    obtain ⟨rfl, rfl⟩ := guardedStore_eq_store h
    exact ⟨by omega, by omega, rfl, rfl⟩

/-- A row and a column below `n` say the place in a row-major array. -/
theorem rowMajor_lt {y x n rows : Nat} (hy : y < rows) (hx : x < n) : y * n + x < rows * n := by
  have : y * n + n ≤ rows * n := by rw [← Nat.succ_mul]; exact Nat.mul_le_mul_right _ hy
  omega

theorem rowMajor_inj {y x y' x' n : Nat} (hx : x < n) (hx' : x' < n) (h : y * n + x = y' * n + x') :
    x = x' ∧ y = y' := by
  have h1 := congrArg (· % n) h
  have h2 := congrArg (· / n) h
  have hn : 0 < n := by omega
  simp only [Nat.mul_add_mod_self_right, Nat.mod_eq_of_lt hx, Nat.mod_eq_of_lt hx'] at h1
  simp only [Nat.mul_comm _ n, Nat.mul_add_div hn, Nat.div_eq_of_lt hx, Nat.div_eq_of_lt hx', Nat.add_zero] at h2
  exact ⟨h1, h2⟩

/-- R205: an item of a command's index space stores inside the write footprint only. -/
theorem itemOf_store_inside {i : Instr} {p : Params} {m : Mem} {it : Item} {a : Nat} {bs : List Byte}
    (hit : it ∈ i.indexSpace) (h : itemOf i p m it = .store a bs) {x : Nat} (h1 : a ≤ x) (h2 : x < a + bs.length) :
    i.writeFootprint.holds x = true := by
  obtain ⟨u, v⟩ := it
  rw [ByteRange.holds_iff]
  cases i with
  | init grid seed w ex ey =>
    obtain ⟨hx, rfl, rfl⟩ := initItem_eq_store h
    obtain ⟨hu, hv⟩ := mem_grid2D.1 hit
    have := rowMajor_lt hv hx
    rw [Instr.writeFootprint, if_neg (by omega), Nat.mul_assoc]
    simp only [initStoreAddr, wordAddr, wordIndex, wordBytes_length] at h1 h2 ⊢
    omega
  | step cur nxt g w ex ey =>
    obtain ⟨hx, hy, rfl, rfl⟩ := stepItem_eq_store h
    have : v * natOfI32 w + u < natOfI32 g * natOfI32 w := rowMajor_lt hy hx
    rw [Instr.writeFootprint, Nat.mul_assoc]
    simp only [stepStoreAddr, gridWordAddr, wordAddr, wordIndex, wordBytes_length] at h1 h2 ⊢
    omega
  | render grid out g w xo yo width ey =>
    obtain ⟨-, -, rfl, rfl⟩ := renderItem_eq_store h
    obtain ⟨hu, hv⟩ := mem_grid2D.1 hit
    have := rowMajor_lt hv hu
    rw [Instr.writeFootprint, Nat.mul_comm (natOfI32 width)]
    simp only [renderStoreAddr, pixelAddr, List.length_singleton] at h1 h2 ⊢
    omega

/-- R62: no byte is written by two items of a command. -/
theorem itemOf_stores_apart {i : Instr} {p : Params} {m m' : Mem} {it jt : Item} {a b : Nat} {bs cs : List Byte}
    (hit : it ∈ i.indexSpace) (hjt : jt ∈ i.indexSpace) (hne : it ≠ jt) (h : itemOf i p m it = .store a bs)
    (h' : itemOf i p m' jt = .store b cs) : a + bs.length ≤ b ∨ b + cs.length ≤ a := by
  obtain ⟨u, v⟩ := it
  obtain ⟨u', v'⟩ := jt
  by_contra hcon
  apply hne
  cases i with
  | init grid seed w ex ey =>
    obtain ⟨hx, rfl, rfl⟩ := initItem_eq_store h
    obtain ⟨hx', rfl, rfl⟩ := initItem_eq_store h'
    simp only [initStoreAddr, wordAddr, wordIndex, wordBytes_length] at hcon
    obtain ⟨rfl, rfl⟩ := rowMajor_inj hx hx' (show v * natOfI32 w + u = v' * natOfI32 w + u' by omega)
    rfl
  | step cur nxt g w ex ey =>
    obtain ⟨hx, -, rfl, rfl⟩ := stepItem_eq_store h
    obtain ⟨hx', -, rfl, rfl⟩ := stepItem_eq_store h'
    simp only [stepStoreAddr, gridWordAddr, wordAddr, wordIndex, wordBytes_length] at hcon
    obtain ⟨rfl, rfl⟩ := rowMajor_inj hx hx' (show v * natOfI32 w + u = v' * natOfI32 w + u' by omega)
    rfl
  | render grid out g w xo yo width ey =>
    obtain ⟨-, -, rfl, rfl⟩ := renderItem_eq_store h
    obtain ⟨-, -, rfl, rfl⟩ := renderItem_eq_store h'
    obtain ⟨hu, -⟩ := mem_grid2D.1 hit
    obtain ⟨hu', -⟩ := mem_grid2D.1 hjt
    simp only [renderStoreAddr, pixelAddr, List.length_singleton] at hcon
    obtain ⟨rfl, rfl⟩ := rowMajor_inj hu hu' (show v * natOfI32 width + u = v' * natOfI32 width + u' by omega)
    rfl

/-! ### The induction over the work items -/

/-- The host's next action does not come before `n` more items. -/
def State.quietFor (s : State) (n : Nat) : Prop := ∀ w a rest, s.inputs = ⟨w, a⟩ :: rest → n ≤ w

/-- The coming host actions after `n` items. -/
def inputsAfter (n : Nat) : List Input → List Input
  | [] => []
  | ⟨w, a⟩ :: rest => ⟨w - n, a⟩ :: rest

/-- With the host quiet, a running command's step is its item in turn. -/
theorem step_of_quiet {s : State} {i : Instr} {p : Item} (hm : s.marked = false) (hq : s.quietFor 1)
    (ha : s.active = some i) (hp : s.nextItem = some p) :
    step s = .next ((s.setInputs (inputsAfter 1 s.inputs)).finishItem i p (itemOf i s.params s.mem p)) := by
  cases hin : s.inputs with
  | nil =>
    rw [step_of_silent hm hin ha, exec_item ha hp]
    rw [show s.setInputs (inputsAfter 1 []) = s by rw [inputsAfter, ← hin]; rfl]
  | cons e rest =>
    obtain ⟨w, a⟩ := e
    have hw : 1 ≤ w := hq w a rest hin
    obtain ⟨n, rfl⟩ : ∃ n, w = n + 1 := ⟨w - 1, by omega⟩
    rw [step_of_waiting hm hin ha]
    exact exec_item (s := s.setInputs (⟨n, a⟩ :: rest)) ha hp

/-- A run goes on from the next state. -/
theorem run_of_step {k : Nat} {s u : State} (h : step s = .next u) :
    Host.Core.run Sys2Proof.core (k + 1) s = Host.Core.run Sys2Proof.core k u := by
  have h' : Sys2Proof.core.step s = .next u := h
  simp only [Host.Core.run, h']

/-- What the items of a command do, one after another, whatever the order: `E it` is what the item `it` does in every
memory that agrees with `m0` on the bytes `R` that the items may read; none of them is unadmitted, none stores into `R`,
and no two stores meet. Then as many steps as there are items pending end the command, every stored byte reads as stored,
and every other byte as before. -/
theorem run_items {i : Instr} {E : Item → ItemEffect} {m0 : Mem} {R : Nat → Prop} {L : List Item} {p : Params}
    (hE : ∀ it ∈ L, ∀ m : Mem, (∀ a, R a → m.read a = m0.read a) → itemOf i p m it = E it)
    (hok : ∀ it ∈ L, ∀ a, E it ≠ .unadmitted a)
    (hR : ∀ it ∈ L, ∀ a bs, E it = .store a bs →
      a + bs.length ≤ addressSpace ∧ ∀ x, a ≤ x → x < a + bs.length → ¬R x)
    (hd : ∀ it ∈ L, ∀ jt ∈ L, it ≠ jt → ∀ a bs b cs, E it = .store a bs → E jt = .store b cs →
      a + bs.length ≤ b ∨ b + cs.length ≤ a) :
    ∀ (n : Nat) (s : State), s.pending.length = n + 1 → s.pending ⊆ L → s.pending.Nodup → s.marked = false →
      s.quietFor (n + 1) → s.active = some i → s.params = p → s.mem.wf = true → (∀ a, R a → s.mem.read a = m0.read a) →
      ∃ t : State, Host.Core.run Sys2Proof.core (n + 1) s = .next t ∧ t.idleAndClean ∧ t.mem.wf = true ∧
        t.inputs = inputsAfter (n + 1) s.inputs ∧ t.desc = s.desc ∧ t.params = s.params ∧ t.reply = s.reply ∧
        (∀ a, (∀ it ∈ s.pending, ∀ b bs, E it = .store b bs → a < b ∨ b + bs.length ≤ a) →
          t.mem.read a = s.mem.read a) ∧
        ∀ it ∈ s.pending, ∀ b bs, E it = .store b bs → ∀ k (h : k < bs.length), t.mem.read (b + k) = bs[k] := by
  intro n
  induction n with
  | zero =>
    intro s hl hsub hnd hm hq ha hp hwf hag
    obtain ⟨q, hpq⟩ := List.length_eq_one_iff.1 hl
    have hnx : s.nextItem = some q := by rw [State.nextItem, hpq]; rfl
    have hqL : q ∈ L := hsub (by rw [hpq]; exact List.mem_singleton.2 rfl)
    have heff : itemOf i s.params s.mem q = E q := by rw [hp]; exact hE q hqL _ hag
    have hstep := step_of_quiet hm hq ha hnx
    rw [heff] at hstep
    have hms : s.faulted = none ∧ s.refused = none := by simpa [State.marked] using hm
    cases he : E q with
    | unadmitted a => exact absurd he (hok q hqL a)
    | skip =>
      rw [he] at hstep
      refine ⟨_, run_of_step hstep, ⟨?_, ?_, ?_, ?_⟩, hwf, rfl, rfl, rfl, rfl, fun _ _ => rfl, ?_⟩
      · show (s.faulted.isSome || s.refused.isSome) = false
        simp [hms]
      · simp [State.finishItem, State.retire, State.withPending, hpq]
      · simp [State.finishItem, State.retire, State.withPending, hpq]
      · simp [State.finishItem, State.retire, State.withPending, hpq]
      · intro it hit b bs hb
        rw [hpq, List.mem_singleton] at hit
        rw [hit, he] at hb
        exact ItemEffect.noConfusion hb
    | store a bs =>
      rw [he] at hstep
      have hb := (hR q hqL a bs he).1
      refine ⟨_, run_of_step hstep, ⟨?_, ?_, ?_, ?_⟩, Mem.wf_writeBytes hwf hb, rfl, rfl, rfl, rfl, ?_, ?_⟩
      · show (s.faulted.isSome || s.refused.isSome) = false
        simp [hms]
      · simp [State.finishItem, State.retire, State.withPending, State.storeBytes, hpq]
      · simp [State.finishItem, State.retire, State.withPending, State.storeBytes, hpq]
      · simp [State.finishItem, State.retire, State.withPending, State.storeBytes, hpq]
      · intro x hx
        have := hx q (by rw [hpq]; exact List.mem_singleton.2 rfl) a bs he
        exact Mem.read_writeBytes_outside hwf hb this
      · intro it hit b cs hcs k hk
        rw [hpq, List.mem_singleton] at hit
        rw [hit, he] at hcs
        obtain ⟨rfl, rfl⟩ := ItemEffect.store.inj hcs
        exact Mem.read_writeBytes_inside hwf hb hk
  | succ n ih =>
    intro s hl hsub hnd hm hq ha hp hwf hag
    have hne : s.pending ≠ [] := by intro h; rw [h] at hl; simp at hl
    obtain ⟨q, hnx⟩ := State.nextItem_isSome hne
    have hqp := State.nextItem_mem hnx
    have hqL : q ∈ L := hsub hqp
    have heff : itemOf i s.params s.mem q = E q := by rw [hp]; exact hE q hqL _ hag
    have hstep := step_of_quiet hm (fun w a rest h => le_trans (by omega) (hq w a rest h)) ha hnx
    rw [heff] at hstep
    have hms : s.faulted = none ∧ s.refused = none := by simpa [State.marked] using hm
    have hlen : (s.pending.erase q).length = n + 1 := by rw [List.length_erase_of_mem hqp]; omega
    have hne' : s.pending.erase q ≠ [] := by intro h; rw [h] at hlen; simp at hlen
    have hemp : (s.pending.erase q).isEmpty = false := by simpa using hne'
    have hsub' : s.pending.erase q ⊆ s.pending := List.erase_subset
    have hin : ∀ l, inputsAfter (n + 1) (inputsAfter 1 l) = inputsAfter (n + 1 + 1) l := by
      intro l
      cases l with
      | nil => rfl
      | cons e rest => simp only [inputsAfter]; rw [Nat.sub_sub, Nat.add_comm 1]
    have hq' : ∀ u : State, u.inputs = inputsAfter 1 s.inputs → u.quietFor (n + 1) := by
      intro u hu w a rest h
      rw [hu] at h
      cases hi : s.inputs with
      | nil => rw [hi] at h; exact absurd h (by simp [inputsAfter])
      | cons e r =>
        obtain ⟨w0, a0⟩ := e
        rw [hi] at h
        have h0 := hq w0 a0 r hi
        simp only [inputsAfter, List.cons.injEq, Input.mk.injEq] at h
        omega
    have hdis : ∀ a bs, E q = .store a bs → ∀ it ∈ s.pending.erase q, ∀ b cs, E it = .store b cs →
        a + bs.length ≤ b ∨ b + cs.length ≤ a := by
      intro a bs he it hit b cs hb
      refine hd q hqL it (hsub (hsub' hit)) (fun h => ?_) a bs b cs he hb
      rw [← h, hnd.mem_erase_iff] at hit
      exact hit.1 rfl
    cases he : E q with
    | unadmitted a => exact absurd he (hok q hqL a)
    | skip =>
      rw [he] at hstep
      obtain ⟨t, h1, h2, h3, h4, h5, h6, h7, h8, h9⟩ :=
        ih ((s.setInputs (inputsAfter 1 s.inputs)).finishItem i q .skip) hlen (fun x hx => hsub (hsub' hx)) (hnd.erase q)
          hm (hq' _ rfl)
          (by simpa [State.finishItem, State.retire, State.withPending, hemp] using ha) hp hwf hag
      refine ⟨t, (run_of_step hstep).trans h1, h2, h3, h4.trans (hin _), h5, h6, h7, fun a hx => ?_, fun it hit b bs hb k hk => ?_⟩
      · exact h8 a fun it hit => hx it (hsub' hit)
      · refine h9 it (hnd.mem_erase_iff.2 ⟨fun h => ?_, hit⟩) b bs hb k hk
        rw [h, he] at hb
        exact ItemEffect.noConfusion hb
    | store a bs =>
      rw [he] at hstep
      obtain ⟨hb, hnR⟩ := hR q hqL a bs he
      obtain ⟨t, h1, h2, h3, h4, h5, h6, h7, h8, h9⟩ :=
        ih ((s.setInputs (inputsAfter 1 s.inputs)).finishItem i q (.store a bs)) hlen (fun x hx => hsub (hsub' hx))
          (hnd.erase q) hm (hq' _ rfl)
          (by simpa [State.finishItem, State.retire, State.withPending, State.storeBytes, hemp] using ha) hp
          (Mem.wf_writeBytes hwf hb)
          (fun x hx => by
            rw [← hag x hx]
            refine Mem.read_writeBytes_outside hwf hb ?_
            by_contra hc
            exact hnR x (by omega) (by omega) hx)
      refine ⟨t, (run_of_step hstep).trans h1, h2, h3, h4.trans (hin _), h5, h6, h7, fun x hx => ?_, fun it hit b cs hcs k hk => ?_⟩
      · rw [h8 x fun it hit => hx it (hsub' hit)]
        exact Mem.read_writeBytes_outside hwf hb (hx q hqp a bs he)
      · by_cases hiq : it = q
        · rw [hiq, he] at hcs
          obtain ⟨rfl, rfl⟩ := ItemEffect.store.inj hcs
          rw [h8 (a + k) fun jt hjt b' cs' hb' => by rcases hdis a bs he jt hjt b' cs' hb' with h | h <;> omega]
          exact Mem.read_writeBytes_inside hwf hb hk
        · exact h9 it (hnd.mem_erase_iff.2 ⟨hiq, hit⟩) b cs hcs k hk

end Sys2Proof.Machine
end

