-- ==== Sys2Proof/Machine/Assembler.lean ====
section
/-! DEFINITION. Machine/Assembler.lean: the textual command syntax of 30_encoding.md R91, read from a list of characters.
Spaces mean nothing; operands stand in the order R91 gives, each required. -/

namespace Sys2Proof.Machine

/-- `cs` after the keyword text `k`. -/
def textAfter : List Char → List Char → Option (List Char)
  | [], cs => some cs
  | _ :: _, [] => none
  | k :: ks, c :: cs => if k = c then textAfter ks cs else none

/-- The value of one digit in base `base`, 10 or 16. -/
def digitValue (base : Nat) (c : Char) : Option Nat :=
  let n := c.toNat
  let v := if 48 ≤ n ∧ n ≤ 57 then n - 48 else if 97 ≤ n ∧ n ≤ 102 then n - 87 else if 65 ≤ n ∧ n ≤ 70 then n - 55 else 16
  if v < base then some v else none

/-- The longest run of digits, added to `acc`, and what follows. -/
def readDigits (base : Nat) (acc : Nat) : List Char → Nat × List Char
  | [] => (acc, [])
  | c :: cs =>
    match digitValue base c with
    | some v => readDigits base (acc * base + v) cs
    | none => (acc, c :: cs)

/-- At least one digit. -/
def readNat (base : Nat) : List Char → Option (Nat × List Char)
  | [] => none
  | c :: cs =>
    match digitValue base c with
    | some v => some (readDigits base v cs)
    | none => none

/-- R91: a number is decimal or `0x` hexadecimal. -/
def readNumber : List Char → Option (Nat × List Char)
  | '0' :: 'x' :: cs => readNat 16 cs
  | cs => readNat 10 cs

/-- A u32 operand. -/
def readU32 (cs : List Char) : Option (Word × List Char) :=
  match readNumber cs with
  | some (n, rest) => if n < 2 ^ 32 then some (BitVec.ofNat 32 n, rest) else none
  | none => none

/-- A u64 address operand. -/
def readAddr (cs : List Char) : Option (Addr × List Char) :=
  match readNumber cs with
  | some (n, rest) => if n < 2 ^ 64 then some (BitVec.ofNat 64 n, rest) else none
  | none => none

/-- An i32 operand, in two's complement; a minus sign may stand before the number. -/
def readI32 : List Char → Option (Word × List Char)
  | '-' :: cs =>
    match readNumber cs with
    | some (n, rest) => if n ≤ 2 ^ 31 then some (-(BitVec.ofNat 32 n), rest) else none
    | none => none
  | cs =>
    match readNumber cs with
    | some (n, rest) => if n < 2 ^ 31 then some (BitVec.ofNat 32 n, rest) else none
    | none => none

/-- `key` and then its operand. -/
def operand {α : Type} (key : List Char) (read : List Char → Option (α × List Char)) (cs : List Char) :
    Option (α × List Char) :=
  (textAfter key cs).bind read

/-- `,ext=(<ex>,<ey>)` to the end of the line. -/
def readExtents (cs : List Char) : Option (Word × Word) := do
  let (ex, cs) ← operand [',', 'e', 'x', 't', '=', '('] readU32 cs
  let (ey, cs) ← operand [','] readU32 cs
  if cs = [')'] then some (ex, ey) else none

/-- The operands of an INIT line. -/
def assembleInit (cs : List Char) : Option Instr := do
  let (a, cs) ← operand ['g', 'r', 'i', 'd', '='] readAddr cs
  let (seed, cs) ← operand [',', 's', 'e', 'e', 'd', '='] readU32 cs
  let (w, cs) ← operand [',', 'w', '='] readI32 cs
  let (ex, ey) ← readExtents cs
  some (.init a seed w ex ey)

/-- The operands of a STEP line. -/
def assembleStep (cs : List Char) : Option Instr := do
  let (a, cs) ← operand ['c', 'u', 'r', '='] readAddr cs
  let (b, cs) ← operand [',', 'n', 'e', 'x', 't', '='] readAddr cs
  let (n, cs) ← operand [',', 'n', '='] readI32 cs
  let (w, cs) ← operand [',', 'w', '='] readI32 cs
  let (ex, ey) ← readExtents cs
  some (.step a b n w ex ey)

/-- The operands of a RENDER line. -/
def assembleRender (cs : List Char) : Option Instr := do
  let (a, cs) ← operand ['g', 'r', 'i', 'd', '='] readAddr cs
  let (b, cs) ← operand [',', 'o', 'u', 't', '='] readAddr cs
  let (n, cs) ← operand [',', 'n', '='] readI32 cs
  let (w, cs) ← operand [',', 'w', '='] readI32 cs
  let (xo, cs) ← operand [',', 'x', 'o', '='] readI32 cs
  let (yo, cs) ← operand [',', 'y', 'o', '='] readI32 cs
  let (width, cs) ← operand [',', 'w', 'i', 'd', 't', 'h', '='] readI32 cs
  let (ey, cs) ← operand [',', 'h', 'e', 'i', 'g', 'h', 't', '='] readU32 cs
  if cs = [] then some (.render a b n w xo yo width ey) else none

/-- R91: the command a line of text spells; its 16 words are `encode` of it. -/
def assemble (line : List Char) : Option Instr :=
  let cs := line.filter (· ≠ ' ')
  match textAfter ['I', 'N', 'I', 'T'] cs with
  | some rest => assembleInit rest
  | none =>
    match textAfter ['S', 'T', 'E', 'P'] cs with
    | some rest => assembleStep rest
    | none =>
      match textAfter ['R', 'E', 'N', 'D', 'E', 'R'] cs with
      | some rest => assembleRender rest
      | none => none

end Sys2Proof.Machine
end

