-- ==== Sys2Proof/Tests/Slice0.lean ====
section
/-! SUPPORT. Tests/Slice0.lean: small tests. Each expected value is a number of spec/95_test_vectors.md or of a worked
example (named in its comment), or is laid out by hand from R83. The last part gives, for each statement with hypotheses, a
concrete case that meets them. -/

namespace Sys2Proof.Tests

open Sys2Proof.Machine

/-! ### Decoding: words laid out from R83 -/

/-- P1, INIT. -/
def p1Init : Descriptor :=
  #v[0x00000000, 0x00001000, 0, 0, 0, 0x12345678, 0, 1, 0, 0, 0, 1, 0x20, 0, 0, 0]
/-- P1, STEP. -/
def p1Step : Descriptor :=
  #v[0x00000001, 0x00001000, 0, 0x00002000, 0, 0, 0x20, 1, 0, 0, 0, 1, 0x20, 0, 0, 0]
/-- P1, RENDER. -/
def p1Render : Descriptor :=
  #v[0x00000002, 0x00002000, 0, 0x00003000, 0, 0, 0x20, 1, 0x1C, 0x1E, 8, 0, 4, 0, 0, 0]

/-- INIT bit by bit: OPC 0b00; A = {word 2, word 1}; SEED word 5; W word 7; extents words 11 and 12. -/
theorem test_decode_init_bits :
    decode #v[0b00000000000000000000000000000000, 0b10000000000000000000000000000100,
      0b00000000000000000000000000000001, 0, 0, 0b11111111111111111111111111111110, 0,
      0b01111111111111111111111111111111, 0, 0, 0, 0b10000000000000000000000000000000,
      0b00000000000000000000000000000011, 0, 0, 0] =
      .ok (.init 0x180000004 0xFFFFFFFE 0x7FFFFFFF 0x80000000 3) := rfl

/-- STEP bit by bit: OPC 0b01; A words 1, 2; B words 3, 4; G word 6; W word 7; extents words 11, 12. -/
theorem test_decode_step_bits :
    decode #v[0b00000000000000000000000000000001, 0b00000000000000000000000000000100,
      0b10000000000000000000000000000000, 0b00000000000000000000000000001000, 0b01000000000000000000000000000000,
      0, 0b00000000000000000000000001000000, 0b00000000000000000000000000000010, 0, 0, 0,
      0b00000000000000000000000000000101, 0b00000000000000000000000000000110, 0, 0, 0] =
      .ok (.step 0x8000000000000004 0x4000000000000008 64 2 5 6) := rfl

/-- RENDER bit by bit: OPC 0b10; xo word 8; yo word 9; WIDTH word 10; height word 12. -/
theorem test_decode_render_bits :
    decode #v[0b00000000000000000000000000000010, 0b00000000000000000000000000001000,
      0b00000000000000000000000000000000, 0b00000000000000000000000000001011, 0b10000000000000000000000000000000,
      0, 0b00000000000000000000000001100000, 0b00000000000000000000000000000011, 0b00000000000000000000000000000111,
      0b00000000000000000000000000001001, 0b00000000000000000000000000001101, 0,
      0b00000000000000000000000000010001, 0, 0, 0] =
      .ok (.render 8 0x800000000000000B 96 3 7 9 13 17) := rfl

/-- 2.8 ILLEGAL_OPCODE: `DESC[0] = 3` and `4`; and a high bit alone (R84). -/
theorem test_decode_illegal_opcode :
    decode #v[3, 0, 0, 0, 0, 0, 0, 0, 0, 0, 0, 0, 0, 0, 0, 0] = .error .illegalOpcode ∧
      decode #v[4, 0, 0, 0, 0, 0, 0, 0, 0, 0, 0, 0, 0, 0, 0, 0] = .error .illegalOpcode ∧
      decode #v[0x80000000, 0, 0, 0, 0, 0, 0, 0, 0, 0, 0, 0, 0, 0, 0, 0] = .error .illegalOpcode := ⟨rfl, rfl, rfl⟩

/-- 2.8 RESERVED_NONZERO: STEP with `DESC[5] = 1`; R235's examples: `DESC[3]` in INIT, `DESC[11]` in RENDER; and
`DESC[15]`. -/
theorem test_decode_reserved :
    decode (p1Step.set 5 1) = .error .reservedNonzero ∧ decode (p1Init.set 3 1) = .error .reservedNonzero ∧
      decode (p1Render.set 11 1) = .error .reservedNonzero ∧ decode (p1Init.set 15 1) = .error .reservedNonzero :=
  ⟨rfl, rfl, rfl, rfl⟩

/-- The encoder writes P1's words. -/
theorem test_encode_p1 :
    encode (.init 0x1000 0x12345678 1 1 32) = p1Init ∧ encode (.step 0x1000 0x2000 32 1 1 32) = p1Step ∧
      encode (.render 0x2000 0x3000 32 1 28 30 8 4) = p1Render := by decide

/-- The opcode table's three rows, by their matches, and no other low word. -/
theorem test_table_words :
    decodeTableWord 32 0 = some (.init 0 0 0 0 0) ∧ decodeTableWord 32 1 = some (.step 0 0 0 0 0 0) ∧
      decodeTableWord 32 2 = some (.render 0 0 0 0 0 0 0 0) ∧ decodeTableWord 32 3 = none := by decide

/-- A whole 512-bit descriptor, word 7 being bits 255 to 224. -/
theorem test_table_word_wide :
    decodeTableWord 512 (1 + 0x20 * 2 ^ 192 + 1 * 2 ^ 224 + 0x2000 * 2 ^ 96) = some (.step 0 0x2000 32 1 0 0) := by
  decide

/-- P1's lines in the syntax of R91, and 2.8's negative operand. -/
theorem test_assemble :
    assemble "STEP   cur=0x1000, next=0x2000, n=32, w=1, ext=(1,32)".toList = some (.step 0x1000 0x2000 32 1 1 32) ∧
      assemble "RENDER grid=0x1000, out=0x3000, n=32, w=1, xo=-1, yo=0, width=4, height=1".toList =
        some (.render 0x1000 0x3000 32 1 0xFFFFFFFF 0 4 1) := by decide

theorem test_assemble_init :
    (assemble "INIT   grid=0x1000, seed=0x12345678, w=1, ext=(1,32)".toList).map encode = some p1Init ∧
      assemble "INIT grid=0x1000, w=1, ext=(1,32)".toList = none := by decide

/-! ### Well-formedness: an ill-formed command for each check (2.8) -/

theorem test_wellFormed_p1 :
    (Instr.init 0x1000 0x12345678 1 1 32).WellFormed = true ∧ (Instr.step 0x1000 0x2000 32 1 1 32).WellFormed = true ∧
      (Instr.render 0x2000 0x3000 32 1 28 30 8 4).WellFormed = true := by decide

theorem test_illFormed_negative :
    submissionCheck (.render 0x1000 0x3000 32 1 0xFFFFFFFF 0 4 1) = some .negativeParam ∧
      submissionCheck (.init 0x1000 0 0x80000000 1 1) = some .negativeParam := by decide

theorem test_illFormed_grid : submissionCheck (.step 0x1000 0x2000 40 1 1 32) = some .gridNotMult32 := by decide

theorem test_illFormed_width : submissionCheck (.step 0x1000 0x2000 64 1 1 32) = some .widthMismatch := by decide

theorem test_illFormed_misaligned :
    submissionCheck (.step 0x1000 0x2002 32 1 1 32) = some .misalignedWordBuffer ∧
      submissionCheck (.init 0x1001 0 1 1 1) = some .misalignedWordBuffer := by decide

theorem test_illFormed_overflow :
    submissionCheck (.step 0x1000 0xFFFFFFFFFFFFFFC0 32 1 1 32) = some .footprintOverflow := by decide

theorem test_illFormed_overlap : submissionCheck (.step 0x1000 0x1040 32 1 1 32) = some .bufferOverlap := by decide

/-- 2.8's accepted edges, and a footprint that ends exactly at 2^64 (R240). -/
theorem test_wellFormed_edges :
    (Instr.render 0x1000 0x3001 32 1 0 0 4 1).WellFormed = true ∧ (Instr.step 0x1000 0x2000 0 0 5 5).WellFormed = true ∧
      (Instr.init 0xFFFFFFFFFFFFFFFC 0 1 1 1).WellFormed = true ∧
      (Instr.init 0xFFFFFFFFFFFFFFFC 0 1 1 2).WellFormed = false ∧
      (Instr.init 0xFFFFFFFFFFFFFFFC 0 1 0 2).WellFormed = true := by decide

/-! ### The generator (2.1, 2.2) -/

theorem test_generator_rows :
    gen 0x12345678 = (0x28AE66B1, 0xCFF935DD) ∧ gen 0xF0000000 = (0x30756EC1, 0x5C564B05) ∧
      gen 0xFFFFFFFF = (0x21A4E086, 0x7FC3D350) ∧ gen 0 = (0, 0xAC564B05) := by decide

theorem test_seed_mix_rows :
    seedMix .xorMul 1 0 0 = 0x9E3779B1 ∧ seedMix .xorMul 0 1 0 = 0x9E3779B9 ∧
      seedMix .xorMul 3 7 0x3039 = 0x89220925 := by decide

theorem test_init_word_rows :
    genTwice .stateChain (seedMix .xorMul 3 7 0x3039) = 0xDE318864 ∧
      genTwice .valueChain (seedMix .xorMul 3 7 0x3039) = 0xC60F6363 ∧
      genTwice .stateChain (seedMix .xorMul 31 31 0xDEADBEEF) = 0x2591F7E3 ∧
      genTwice .valueChain (seedMix .xorMul 0 0 0) = 0x30BE035E := by decide

/-! ### The datapath (2.4, 2.5, 2.6) -/

theorem test_planes :
    westPlane 0x12345678 0xFFFFFFFF = 0x2468ACF1 ∧ eastPlane 0x12345678 0xFFFFFFFF = 0x891A2B3C ∧
      westPlane 0 0x80000000 = 1 ∧ eastPlane 0 1 = 0x80000000 ∧ westPlane 0x80000001 0x80000001 = 3 := by decide

theorem test_full_adder :
    fullAdd ⟨0xF, 0x3, 0x1⟩ 0x5 = ⟨0xA, 0x6, 0⟩ ∧
      fullAdd ⟨0xFFFFFFFF, 0xFFFFFFFF, 0xFFFFFFFF⟩ 0xFFFFFFFF = ⟨0, 0, 0⟩ := by decide

/-- R155, item (0, 0): the accumulator and the result. -/
theorem test_ripple_blinker :
    ripple (planes ⟨0, 0, 0, 0, 0, 0, 0xE, 0xE, 0xE⟩) = ⟨0x15, 0xE, 0⟩ ∧
      nextWord ⟨0, 0, 0, 0, 0, 0, 0xE, 0xE, 0xE⟩ = 4 := by decide

/-- V-8N: eight neighbours. -/
theorem test_eight_neighbours :
    nextWord ⟨0xFFFFFFFF, 0xFFFFFFFF, 0xFFFFFFFF, 0xFFFFFFFF, 0xFFFFFFFF, 0xFFFFFFFF, 0xFFFFFFFF, 0xFFFFFFFF,
      0xFFFFFFFF⟩ = 0 := by decide

theorem test_ring_edges : ringPrev 32 0 = 31 ∧ ringNext 32 31 = 0 ∧ ringPrev 1 0 = 0 ∧ ringNext 1 0 = 0 := by decide

/-! ### One step of each command -/

/-- The next state, where there is one. -/
def nextOf (o : Host.Outcome State Fault Refusal) : Option State :=
  match o with
  | .next t => some t
  | _ => none

/-- A state in which `i` runs with these items left, these words listed in memory, and a scripted pick. -/
def running (i : Instr) (items : List Item) (words : List (Nat × Word)) : State :=
  { State.reset with
    mem := words.foldl (fun m w => m.writeBytes w.1 (wordBytes w.2)) []
    busy := true
    active := some i
    pending := items
    picks := [0] }

/-- R124: the bytes E2 2F BB 07 at 0x1000, and the command is complete. -/
theorem test_init_item :
    (nextOf (exec (.init 0x1000 0 1 1 1) (running (.init 0x1000 0 1 1 1) [(0, 0)] []))).map
        (fun t => (t.mem, t.busy, t.active, t.pending)) =
      some ([(0x1000, 0xE2), (0x1001, 0x2F), (0x1002, 0xBB), (0x1003, 0x07)], false, none, []) := by decide

/-- 2.3, guard: the item at x = 1 skips, the item at x = 2 is left. -/
theorem test_init_skip :
    (nextOf (exec (.init 0x1000 0 1 4 1) (running (.init 0x1000 0 1 4 1) [(1, 0), (2, 0)] []))).map
        (fun t => (t.mem, t.busy, t.pending)) = some ([], true, [(2, 0)]) := by decide

/-- R155, item (0, 1): the blinker's middle row becomes 0x00000004 in `next`. -/
theorem test_step_item :
    (nextOf (exec (.step 0x1000 0x2000 32 1 1 32)
        (running (.step 0x1000 0x2000 32 1 1 32) [(0, 1)] [(0x1004, 0xE)]))).map
        (fun t => (t.mem.readWord 0x2004, t.mem.readWord 0x1004, t.busy)) = some (4, 0xE, false) := by decide

/-- V-XW a, 2.6 word borrow: cell (2, 64) is born in word (2, 1). -/
theorem test_step_borrow :
    (nextOf (exec (.step 0x1000 0x2000 64 2 2 64)
        (running (.step 0x1000 0x2000 64 2 2 64) [(1, 2)]
          [(0x1008, 0x80000000), (0x1010, 0x80000000), (0x1018, 0x80000000)]))).map
        (fun t => t.mem.readWord 0x2014) = some 1 := by decide

/-- R188: pixel (1, 0) of the window at xo = 30 is 0xFF. -/
theorem test_render_item :
    (nextOf (exec (.render 0x1000 0x3001 32 1 30 0 4 2)
        (running (.render 0x1000 0x3001 32 1 30 0 4 2) [(1, 0)] [(0x1000, 0x80000001)]))).map
        (fun t => (t.mem.read 0x3002, t.mem.read 0x3001)) = some (0xFF, 0) := by decide

/-- R188: pixel (2, 0) is past the edge and keeps its byte. -/
theorem test_render_skip :
    (nextOf (exec (.render 0x1000 0x3000 32 1 30 0 4 2)
        (running (.render 0x1000 0x3000 32 1 30 0 4 2) [(2, 0)] [(0x1000, 0x80000001), (0x3000, 0xAAAAAAAA)]))).map
        (fun t => (t.mem.read 0x3002, t.pending)) = some (0xAA, []) := by decide

/-! ### The doorbell, the host and the fetch hook -/

/-- Reset, with this host action next. -/
def hostState (a : HostAction) : State := { State.reset with inputs := [⟨0, a⟩] }

/-- `withFetchWord` makes the very next step run the table's rows: each is accepted and, with an empty index space,
completes at once (R93). -/
theorem test_fetch_rows :
    (nextOf (step (State.reset.withFetchWord 32 0))).map (fun t => (t.busy, t.refused)) = some (false, none) ∧
      (nextOf (step (State.reset.withFetchWord 32 1))).map (fun t => (t.busy, t.refused)) = some (false, none) ∧
      (nextOf (step (State.reset.withFetchWord 32 2))).map (fun t => (t.busy, t.refused)) = some (false, none) := by
  decide

/-- 2.8, accepted edge: STEP with `n=0, w=0, ext=(5,5)` is accepted and complete at once, with no access (R93, D25). -/
theorem test_empty_grid_step :
    (nextOf (exec (.step 0x1000 0x2000 0 0 5 5) State.reset)).map (fun t => (t.busy, t.refused.isSome)) =
        some (false, false) ∧
      (nextOf (exec (.step 0x1000 0x2000 0 0 5 5) State.reset)).map (fun t => t.mem) = some [] ∧
      (nextOf (exec (.step 0x1000 0x2000 0 0 5 5) State.reset)).map (fun t => t.pending.length) = some 0 := by decide

/-- D25 for RENDER; and a grid that is not empty leaves its five by five items pending. -/
theorem test_empty_grid_render :
    (nextOf (exec (.render 0x1000 0x3000 0 0 0 0 4 2) State.reset)).map (fun t => (t.busy, t.pending.length)) =
        some (false, 0) ∧
      (nextOf (exec (.step 0x1000 0x2000 32 1 5 5) State.reset)).map (fun t => (t.busy, t.pending.length)) =
        some (true, 25) := by decide

/-- D19: a racing read of a byte that no item has written yet returns its old value, 0x5A, whichever way the draw falls;
of a byte that one has written, the old or the written value. -/
theorem test_raced_read :
    (∀ k, ({ State.reset with mem := [(0x2000, 0x5A)], before := [(0x2000, 0x5A)] } : State).racedByte k 0x2000 = 0x5A) ∧
      ∀ k, ({ State.reset with mem := [(0x2000, 0x04)], before := [(0x2000, 0x5A)] } : State).racedByte k 0x2000 = 0x5A ∨
        ({ State.reset with mem := [(0x2000, 0x04)], before := [(0x2000, 0x5A)] } : State).racedByte k 0x2000 = 0x04 := by
  refine ⟨fun k => ?_, fun k => ?_⟩
  · rw [State.racedByte]
    split <;> rfl
  · rw [State.racedByte]
    split
    · exact .inl rfl
    · exact .inr rfl

/-- 2.8: after reset with `DESC` unwritten, a doorbell is refused. -/
theorem test_doorbell_unwritten :
    (nextOf (step (hostState (.writeReg 0x40 32 1)))).map (fun t => t.refused) =
      some (some (.rejected .descUnwritten (.access (.writeReg 0x40 32 1)))) := by decide

/-- 2.8: a 16-bit read of STATUS, and an access at 0x48, are refused; a 32-bit read of STATUS returns 0 at reset. -/
theorem test_register_access :
    (nextOf (step (hostState (.readReg 0x44 16)))).map (fun t => t.refused.isSome) = some true ∧
      (nextOf (step (hostState (.writeReg 0x48 32 0)))).map (fun t => t.refused.isSome) = some true ∧
      (nextOf (step (hostState (.readReg 0x44 32)))).map (fun t => t.reply) = some (.word 0) := by decide

/-- 2.8 HOST_RACE: the host writes byte 0x1000 while a STEP of it runs; the mark is set and the byte stays. -/
theorem test_host_race :
    (nextOf (step { running (.step 0x1000 0x2000 32 1 1 32) [(0, 1)] [] with
        inputs := [⟨0, .writeMem 0x1000 [1]⟩] })).map (fun t => (t.faulted.isSome, t.mem)) = some (true, []) := by
  decide

/-! ### Witnesses: a concrete case that meets the hypotheses of each statement -/

/-- The host action that rings the doorbell at `REG_BASE` = 0, and one with every other bit set too. -/
def bell : HostAction := .writeReg 0x40 32 1
def fullBell : HostAction := .writeReg 0x40 32 0xFFFFFFFF

/-- Reset, with a descriptor written and the doorbell next. -/
def ringing (d : Descriptor) : State := { hostState bell with desc := writtenRegs d }

/-- Reset, `i` running with all its items left, and this host action next. -/
def busyWith (i : Instr) (a : HostAction) : State := { running i i.indexSpace [] with inputs := [⟨0, a⟩] }

/-- Every footprint inside the address space is admitted at launch. -/
theorem admitsAll_launch {r : ByteRange} (h : r.hi ≤ addressSpace) : admitsAll launchParams r := by
  intro a ha
  rw [ByteRange.holds_iff] at ha
  rw [admits_iff]
  refine ⟨by omega, fun k hk => ⟨⟨0, addressSpace⟩, List.mem_singleton.2 rfl, ?_⟩⟩
  show 0 ≤ a + k ∧ a + k < addressSpace
  omega

theorem test_witness_decoded : decode p1Step = .ok (.step 0x1000 0x2000 32 1 1 32) := rfl

theorem test_witness_doorbell_busy :
    (busyWith (.init 0x1000 0 1 1 1) bell).hostMoves bell [] ∧ (busyWith (.init 0x1000 0 1 1 1) bell).isDoorbell bell ∧
      (busyWith (.init 0x1000 0 1 1 1) bell).busy = true ∧ State.reset.isDoorbell fullBell :=
  ⟨⟨rfl, rfl⟩, ⟨1#32, rfl, rfl⟩, rfl, ⟨0xFFFFFFFF#32, rfl, rfl⟩⟩

/-- Both clauses, at the first and at the last register. -/
theorem test_witness_unwritten :
    ((hostState bell).hostMoves bell [] ∧ (hostState bell).isDoorbell bell ∧ (hostState bell).busy = false ∧
        (hostState bell).desc[(15 : Fin 16)] = .unwritten) ∧
      (hostState (.readReg 0x3C 32)).hostMoves (.readReg (regAddr State.reset.params (.desc 15)) 32) [] ∧
      (hostState (.readReg 0 32)).hostMoves (.readReg (regAddr State.reset.params (.desc 0)) 32) [] ∧
      State.reset.desc[(0 : Fin 16)] = .unwritten :=
  ⟨⟨⟨rfl, rfl⟩, ⟨1#32, rfl, rfl⟩, rfl, rfl⟩, ⟨rfl, rfl⟩, ⟨rfl, rfl⟩, rfl⟩

/-- The values next to the legal ones. -/
theorem test_witness_illegal_opcode :
    (ringing (p1Step.set 0 3)).hostMoves bell [] ∧ (ringing (p1Step.set 0 3)).isDoorbell bell ∧
      (ringing (p1Step.set 0 3)).busy = false ∧ (p1Step.set 0 3)[0] ≠ 0 ∧ (p1Step.set 0 3)[0] ≠ 1 ∧
      (p1Step.set 0 3)[0] ≠ 2 ∧ (p1Step.set 0 0x80000001)[0] ≠ 1 :=
  ⟨⟨rfl, rfl⟩, ⟨1#32, rfl, rfl⟩, rfl, by decide, by decide, by decide, by decide⟩

/-- Each opcode's clause, at the first and at the last reserved word. -/
theorem test_witness_reserved :
    (ringing (p1Init.set 3 1)).hostMoves bell [] ∧ (ringing (p1Init.set 3 1)).isDoorbell bell ∧
      (ringing (p1Init.set 3 1)).busy = false ∧
      ((p1Init.set 3 1)[0] = 0 ∧ (p1Init.set 3 1)[3] ≠ 0) ∧ ((p1Init.set 15 1)[0] = 0 ∧ (p1Init.set 15 1)[15] ≠ 0) ∧
      ((p1Step.set 5 1)[0] = 1 ∧ (p1Step.set 5 1)[5] ≠ 0) ∧ ((p1Step.set 15 1)[0] = 1 ∧ (p1Step.set 15 1)[15] ≠ 0) ∧
      ((p1Render.set 5 1)[0] = 2 ∧ (p1Render.set 5 1)[5] ≠ 0) ∧
      ((p1Render.set 11 1)[0] = 2 ∧ (p1Render.set 11 1)[11] ≠ 0) :=
  ⟨⟨rfl, rfl⟩, ⟨1#32, rfl, rfl⟩, rfl, by decide, by decide, by decide, by decide, by decide, by decide⟩

/-- The i32 values on both sides of zero, and the two extremes. -/
theorem test_witness_negative :
    State.reset.active = none ∧ (0xFFFFFFFF#32).toInt < 0 ∧ (0x80000000#32).toInt < 0 ∧ ¬(0x7FFFFFFF#32).toInt < 0 ∧
      ¬(0#32).toInt < 0 := by decide

theorem test_witness_grid_shape :
    State.reset.active = none ∧ (33#32).toInt % 32 ≠ 0 ∧ (31#32).toInt % 32 ≠ 0 ∧ 0 ≤ (31#32).toInt ∧
      (1#32).toInt ≠ (64#32).toInt / 32 ∧ (2#32).toInt ≠ (32#32).toInt / 32 ∧ (32#32).toInt % 32 = 0 ∧
      0 ≤ (64#32).toInt := by decide

theorem test_witness_misaligned :
    (0x1001#64).toNat % 4 ≠ 0 ∧ (0x2003#64).toNat % 4 ≠ 0 ∧ 0 ≤ (1#32).toInt ∧ (32#32).toInt = 32 * (1#32).toInt ∧
      State.reset.refused = none ∧ (0x1000#64).toNat % 4 = 0 ∧ (0x3001#64).toNat % 4 ≠ 0 := by decide

/-- INIT one word past the end, STEP as in 2.8, RENDER one byte past the end. -/
theorem test_witness_overflow :
    (0 < (1#32).toNat ∧
        EndsPastMemory (0xFFFFFFFFFFFFFFFC#64).toNat ((0xFFFFFFFFFFFFFFFC#64).toNat + 4 * ((2#32).toNat * (1#32).toInt))) ∧
      EndsPastMemory (0xFFFFFFFFFFFFFFC0#64).toNat
        ((0xFFFFFFFFFFFFFFC0#64).toNat + 4 * ((32#32).toInt * (1#32).toInt)) ∧
      EndsPastMemory (0xFFFFFFFFFFFFFFFF#64).toNat ((0xFFFFFFFFFFFFFFFF#64).toNat + (2#32).toInt * (1#32).toNat) := by
  refine ⟨⟨by decide, ?_⟩, ?_, ?_⟩ <;> exact ⟨by decide, by decide⟩

/-- One shared byte: the last of `current`, and the last of the grid. -/
theorem test_witness_overlap :
    ShareAByte (0x1000#64).toNat ((0x1000#64).toNat + 4 * ((32#32).toInt * (1#32).toInt)) (0x107C#64).toNat
        ((0x107C#64).toNat + 4 * ((32#32).toInt * (1#32).toInt)) ∧
      ShareAByte (0x1000#64).toNat ((0x1000#64).toNat + 4 * ((32#32).toInt * (1#32).toInt)) (0x107F#64).toNat
        ((0x107F#64).toNat + (1#32).toInt * (1#32).toNat) ∧
      0 ≤ (32#32).toInt ∧ 0 ≤ (1#32).toInt ∧ (0x107C#64).toNat % 4 = 0 := by
  refine ⟨⟨0x107C, ?_⟩, ⟨0x107F, ?_⟩, ?_⟩ <;> decide

/-- Each opcode, a full and an empty index space, and an empty grid. -/
theorem test_witness_accepted :
    State.reset.active = none ∧ State.reset.busy = false ∧ (Instr.init 0x1000 0 1 1 32).WellFormed = true ∧
      (Instr.step 0x1000 0x2000 32 1 1 32).WellFormed = true ∧ (Instr.step 0x1000 0x2000 32 1 0 32).WellFormed = true ∧
      (Instr.render 0x1000 0x3001 32 1 0 0 4 1).WellFormed = true ∧ ((4 : Nat) : Int) = (4#32).toInt ∧
      (Instr.render 0x1000 0x3001 32 1 0 0 0 1).WellFormed = true ∧ ((0 : Nat) : Int) = (0#32).toInt ∧
      (Instr.step 0x1000 0x2000 0 0 5 5).WellFormed = true ∧
      (Instr.render 0x1000 0x3001 0 0 0 0 4 1).WellFormed = true := by decide

/-- The last word-column of a row. -/
theorem test_witness_init_item :
    let s := running (.init 0x1000 0 2 2 1) [(1, 0)] []
    s.active = some (.init 0x1000 0 2 2 1) ∧ s.nextItem = some (1, 0) ∧ s.mem.wf = true ∧ 0 ≤ (2#32).toInt ∧
      ((1 : Nat) : Int) < (2#32).toInt ∧ s.params.admits ((0x1000#64).toNat + 4 * (0 * (2#32).toNat + 1)) 4 = true := by
  decide

/-- The last row: both edges wrap. -/
theorem test_witness_step_item :
    let s := running (.step 0x1000 0x2000 32 1 1 32) [(0, 31)] []
    s.active = some (.step 0x1000 0x2000 32 1 1 32) ∧ s.nextItem = some (0, 31) ∧ s.mem.wf = true ∧
      0 ≤ (32#32).toInt ∧ (32#32).toInt = 32 * (1#32).toInt ∧ ((0 : Nat) : Int) < (1#32).toInt ∧
      ((31 : Nat) : Int) < (32#32).toInt ∧
      (∀ a ∈ hoodAddrs (0x1000#64).toNat (32#32).toNat (1#32).toNat 0 31, s.params.admits a 4 = true) ∧
      s.params.admits ((0x2000#64).toNat + 4 * (31 * (1#32).toNat + 0)) 4 = true := by decide

/-- The grid's last pixel. -/
theorem test_witness_render_item :
    let s := running (.render 0x1000 0x3001 32 1 30 31 4 2) [(1, 0)] []
    s.active = some (.render 0x1000 0x3001 32 1 30 31 4 2) ∧ s.nextItem = some (1, 0) ∧ s.mem.wf = true ∧
      ((1 : Nat) : Int) + (30#32).toInt < (32#32).toInt ∧ ((0 : Nat) : Int) + (31#32).toInt < (32#32).toInt ∧
      s.params.admits ((0x1000#64).toNat + 4 * ((0 + (31#32).toNat) * (1#32).toNat + (1 + (30#32).toNat) / 32)) 4 =
        true ∧
      s.params.admits ((0x3001#64).toNat + 0 * (4#32).toNat + 1) 1 = true := by decide

/-- Each opcode's first coordinate out of range. -/
theorem test_witness_skip :
    (running (.init 0x1000 0 1 2 1) [(1, 0)] []).nextItem = some (1, 0) ∧ (Instr.init 0x1000 0 1 2 1).WellFormed = true ∧
      (1#32).toInt ≤ ((1 : Nat) : Int) ∧
      (running (.step 0x1000 0x2000 32 1 1 33) [(0, 32)] []).nextItem = some (0, 32) ∧
      (Instr.step 0x1000 0x2000 32 1 1 33).WellFormed = true ∧ (32#32).toInt ≤ ((32 : Nat) : Int) ∧
      (running (.render 0x1000 0x3000 32 1 30 0 4 2) [(2, 0)] []).nextItem = some (2, 0) ∧
      (Instr.render 0x1000 0x3000 32 1 30 0 4 2).WellFormed = true ∧
      (32#32).toInt ≤ ((2 : Nat) : Int) + (30#32).toInt := by decide

/-- Launch parameters that admit these ranges only. -/
def admitting (rs : List ByteRange) (s : State) : State := { s with params := { s.params with admitted := rs } }

theorem test_witness_unadmitted_init :
    let s := admitting [⟨0x1000, 0x1003⟩] (running (.init 0x1000 0 1 1 1) [(0, 0)] [])
    s.active = some (.init 0x1000 0 1 1 1) ∧ s.nextItem = some (0, 0) ∧
      s.params.admits ((0x1000#64).toNat + 4 * (0 * (1#32).toNat + 0)) 4 = false := by decide

/-- 2.8: `current` is admitted and `next` is not, so the tenth access is the first that is not. -/
theorem test_witness_unadmitted_step :
    let s := admitting [⟨0x1000, 0x1080⟩] (running (.step 0x1000 0x2000 32 1 1 32) [(0, 0)] [])
    s.nextItem = some (0, 0) ∧
      hoodAddrs (0x1000#64).toNat (32#32).toNat (1#32).toNat 0 0 ++ [(0x2000#64).toNat + 4 * (0 * (1#32).toNat + 0)] =
        hoodAddrs (0x1000#64).toNat (32#32).toNat (1#32).toNat 0 0 ++ 0x2000 :: [] ∧
      (∀ b ∈ hoodAddrs (0x1000#64).toNat (32#32).toNat (1#32).toNat 0 0, s.params.admits b 4 = true) ∧
      s.params.admits 0x2000 4 = false := by decide

/-- RENDER's read is not admitted; its read is and its write is not. -/
theorem test_witness_unadmitted_render :
    let s := admitting [⟨0x3000, 0x3008⟩] (running (.render 0x1000 0x3000 32 1 30 0 4 2) [(1, 0)] [])
    let s' := admitting [⟨0x1000, 0x1080⟩] (running (.render 0x1000 0x3000 32 1 30 0 4 2) [(1, 0)] [])
    s.nextItem = some (1, 0) ∧
      s.params.admits ((0x1000#64).toNat + 4 * ((0 + (0#32).toNat) * (1#32).toNat + (1 + (30#32).toNat) / 32)) 4 =
        false ∧
      s'.nextItem = some (1, 0) ∧
      s'.params.admits ((0x1000#64).toNat + 4 * ((0 + (0#32).toNat) * (1#32).toNat + (1 + (30#32).toNat) / 32)) 4 =
        true ∧
      s'.params.admits ((0x3000#64).toNat + 0 * (4#32).toNat + 1) 1 = false := by decide

/-- The frames: an item that stores, an item that skips, and a submission, for each opcode. -/
theorem test_witness_frames :
    (running (.init 0x1000 0 1 4 1) [(0, 0)] []).mem.wf = true ∧
      (nextOf (exec (.init 0x1000 0 1 4 1) (running (.init 0x1000 0 1 4 1) [(0, 0)] []))).isSome = true ∧
      (nextOf (exec (.init 0x1000 0 1 4 1) (running (.init 0x1000 0 1 4 1) [(1, 0)] []))).isSome = true ∧
      (nextOf (exec (.step 0x1000 0x2000 32 1 1 32) State.reset)).isSome = true ∧
      (nextOf (exec (.step 0x1000 0x2000 32 1 1 32)
        (running (.step 0x1000 0x2000 32 1 1 32) [(0, 0)] []))).isSome = true ∧
      (nextOf (exec (.render 0x1000 0x3000 32 1 30 0 4 2)
        (running (.render 0x1000 0x3000 32 1 30 0 4 2) [(1, 0)] []))).isSome = true := by decide

theorem test_witness_planes_list :
    (planes ⟨0, 0, 0, 0, 0, 0, 0, 0, 0⟩).length = 8 ∧ (0 : Nat) < 32 ∧ (31 : Nat) < 32 := by decide

theorem test_witness_plane_order : List.Perm [1#32, 2#32] [2#32, 1#32] := List.Perm.swap _ _ _

theorem test_witness_ring : (0 : Nat) < 1 ∧ (31 : Nat) < 32 ∧ (0 : Nat) < 32 := by decide

/-- Two INITs over other grids and widths, at the same coordinates. -/
theorem test_witness_init_word :
    let s := running (.init 0x1000 7 1 1 1) [(0, 0)] []
    let s' := running (.init 0x2000 7 2 2 2) [(0, 0)] [(0x1000, 5)]
    s.nextItem = some (0, 0) ∧ s'.nextItem = some (0, 0) ∧ s.mem.wf = true ∧ s'.mem.wf = true ∧ 0 < natOfI32 1 ∧
      0 < natOfI32 2 ∧ s.params.prngChain = s'.params.prngChain ∧ s.params.seedMix = s'.params.seedMix ∧
      (nextOf (exec (.init 0x1000 7 1 1 1) s)).map (fun t => t.faulted) = some none ∧
      (nextOf (exec (.init 0x2000 7 2 2 2) s')).map (fun t => t.faulted) = some none := by decide

/-! #### Whole-machine statements -/

/-- An INIT of two words, both left, nothing coming from the host. -/
def twoItems : State := running (.init 0x1000 0 2 2 1) [(0, 0), (1, 0)] []

theorem twoItems_inv : twoItems.Inv where
  memory := by decide
  oldMemory := rfl
  busyActive := rfl
  idle h := absurd h (by decide)
  accepted i h := by obtain rfl := Option.some.inj h; decide
  running i h := by obtain rfl := Option.some.inj h; exact ⟨by decide, List.Sublist.refl _⟩
  oneMark := .inl rfl

/-- A step of a state with the invariant that changes a byte, inside the active footprint. -/
theorem test_witness_step_changes :
    twoItems.Inv ∧ (nextOf (step twoItems)).map (fun t => (t.mem.read 0x1000, twoItems.mem.read 0x1000)) =
      some (0xE2, 0) := ⟨twoItems_inv, by decide⟩

/-- A command that runs, with nothing written yet. -/
theorem test_witness_race_invariant : twoItems.Inv ∧ twoItems.RaceInv ∧ (nextOf (step twoItems)).isSome = true :=
  ⟨twoItems_inv, fun _ _ => ⟨fun _ _ => rfl, fun _ _ => .inl rfl⟩, by decide⟩

/-- A marked state of each kind. -/
theorem test_witness_marked :
    (twoItems.markFault (.hostRace (.init 0x1000 0 2 2 1) .reset)).faulted.isSome = true ∧
      (State.reset.refuse (.beyondMemory .reset)).faulted = none ∧
      (State.reset.refuse (.beyondMemory .reset)).refused.isSome = true ∧ (nextOf (step twoItems)).isSome = true := by
  decide

/-- A host write changes a descriptor register, and so does a reset. -/
theorem test_witness_desc_changes :
    (nextOf (step (hostState (.writeReg 0 32 7)))).map (fun t => t.desc[(0 : Fin 16)]) = some (.written 7) ∧
      (nextOf (step { hostState .reset with desc := writtenRegs p1Step })).map (fun t => t.desc[(15 : Fin 16)]) =
        some .unwritten := by decide

/-- Two memories that agree on the read footprint only. -/
theorem test_witness_read_footprint :
    (Instr.step 0x1000 0x2000 32 1 1 32).WellFormed = true ∧
      (Instr.render 0x1000 0x3000 32 1 0 0 4 2).WellFormed = true ∧
      (∀ a, (Instr.step 0x1000 0x2000 32 1 1 32).readFootprint.holds a = true →
        Mem.read [] a = Mem.read [(0x2000, 1)] a) := by
  refine ⟨by decide, by decide, fun a h => ?_⟩
  rw [ByteRange.holds_iff] at h
  have h2 : a < 0x1080 := h.2
  have h3 : a ≠ 0x2000 := by omega
  simp [Mem.read, h3]

/-- All four ways a step runs a command. -/
theorem test_witness_step_runs :
    ((ringing p1Init).hostMoves bell [] ∧ (ringing p1Init).isDoorbell bell ∧ (ringing p1Init).busy = false ∧
        decode p1Init = .ok (.init 0x1000 0x12345678 1 1 32)) ∧
      (twoItems.marked = false ∧ twoItems.inputs = [] ∧ twoItems.active = some (.init 0x1000 0 2 2 1)) ∧
      ({ twoItems with inputs := [⟨1, bell⟩] } : State).inputs = ⟨0 + 1, bell⟩ :: [] ∧
      decodeTableWord 32 2 = some (.render 0 0 0 0 0 0 0 0) :=
  ⟨⟨⟨rfl, rfl⟩, ⟨1#32, rfl, rfl⟩, rfl, rfl⟩, ⟨rfl, rfl, rfl⟩, rfl, by decide⟩

theorem test_witness_idle : State.reset.marked = false ∧ State.reset.active = none ∧ State.reset.inputs = [] := by
  decide

/-- The host's register actions, each at the first and the last register it may name. -/
theorem test_witness_registers :
    (hostState (.writeReg 0x3C 32 7)).hostMoves (.writeReg (regAddr State.reset.params (.desc 15)) 32 7) [] ∧
      ({ hostState (.readReg 0 32) with desc := writtenRegs p1Step } : State).hostMoves
        (.readReg (regAddr State.reset.params (.desc 0)) 32) [] ∧
      (writtenRegs p1Step)[(0 : Fin 16)] = .written 1 ∧
      (busyWith (.init 0x1000 0 1 1 1) (.readReg 0x44 32)).hostMoves (.readReg (regAddr State.reset.params .status) 32) [] ∧
      (hostState (.readReg 0x40 32)).hostMoves (.readReg (regAddr State.reset.params .doorbell) 32) [] ∧
      (hostState (.writeReg 0x40 32 0xFFFFFFFE)).hostMoves
        (.writeReg (regAddr State.reset.params .doorbell) 32 0xFFFFFFFE) [] ∧
      (0xFFFFFFFE#32).getLsbD 0 = false ∧
      (hostState (.writeReg 0x44 32 1)).hostMoves (.writeReg (regAddr State.reset.params .status) 32 1) [] :=
  ⟨⟨rfl, rfl⟩, ⟨rfl, rfl⟩, rfl, ⟨rfl, rfl⟩, ⟨rfl, rfl⟩, ⟨rfl, rfl⟩, by decide, ⟨rfl, rfl⟩⟩

/-- A wrong width, the first offset past the registers, and one between two registers. -/
theorem test_witness_other_access :
    (hostState (.writeReg 0x44 16 0)).hostMoves (.writeReg 0x44 16 0) [] ∧
      (∀ k, k < 18 → 0x48 ≠ State.reset.params.regBase + 4 * k) ∧
      (hostState (.readReg 0x41 32)).hostMoves (.readReg 0x41 32) [] ∧
      (∀ k, k < 18 → 0x41 ≠ State.reset.params.regBase + 4 * k) ∧
      (hostState (.writeReg 0x44 32 9)).hostMoves (.writeReg (State.reset.params.regBase + 0x44) 32 9) [] ∧
      (hostState (.readReg 0x40 32)).hostMoves (.readReg (State.reset.params.regBase + 0x40) 32) [] :=
  ⟨⟨rfl, rfl⟩, by decide, ⟨rfl, rfl⟩, by decide, ⟨rfl, rfl⟩, ⟨rfl, rfl⟩⟩

/-- A host write just outside both footprints of a running STEP, at their upper and lower ends. -/
theorem test_witness_host_write :
    (hostState (.writeMem 0xFFFFFFFFFFFFFFFF [1])).hostMoves (.writeMem 0xFFFFFFFFFFFFFFFF [1]) [] ∧
      0xFFFFFFFFFFFFFFFF + [1#8].length ≤ 2 ^ 64 ∧
      (busyWith (.step 0x1000 0x2000 32 1 1 1) (.writeMem 0x1080 [1])).hostMoves (.writeMem 0x1080 [1]) [] ∧
      (Instr.step 0x1000 0x2000 32 1 1 1).readFootprint.holds 0x1080 = false ∧
      (Instr.step 0x1000 0x2000 32 1 1 1).writeFootprint.holds 0x1080 = false ∧
      (Instr.step 0x1000 0x2000 32 1 1 1).readFootprint.holds 0xFFF = false ∧
      (Instr.step 0x1000 0x2000 32 1 1 1).writeFootprint.holds 0x1FFF = false :=
  ⟨⟨rfl, rfl⟩, by decide, ⟨rfl, rfl⟩, by decide, by decide, by decide, by decide⟩

/-- A race on the last byte of either footprint. -/
theorem test_witness_race :
    let s := busyWith (.step 0x1000 0x2000 32 1 1 1) (.writeMem 0x107F [1])
    s.hostMoves (.writeMem 0x107F [1]) [] ∧ 0x107F + [1#8].length ≤ 2 ^ 64 ∧ s.busy = true ∧
      s.active = some (.step 0x1000 0x2000 32 1 1 1) ∧
      (Instr.step 0x1000 0x2000 32 1 1 1).readFootprint.holds 0x107F = true ∧
      (Instr.step 0x1000 0x2000 32 1 1 1).writeFootprint.holds 0x207F = true :=
  ⟨⟨rfl, rfl⟩, by decide, rfl, rfl, by decide, by decide⟩

theorem test_witness_host_read :
    (busyWith (.step 0x1000 0x2000 32 1 1 1) (.readMem 0x1FFF 2)).hostMoves (.readMem 0x1FFF 2) [] ∧
      0x1FFF + 2 ≤ 2 ^ 64 ∧ (Instr.step 0x1000 0x2000 32 1 1 1).writeFootprint.holds (0x1FFF + 0) = false ∧
      (Instr.step 0x1000 0x2000 32 1 1 1).writeFootprint.holds (0x1FFF + 1) = true :=
  ⟨⟨rfl, rfl⟩, by decide, by decide, by decide⟩

theorem test_witness_reset_event : (busyWith (.init 0x1000 0 1 1 1) .reset).hostMoves .reset [] := ⟨rfl, rfl⟩

theorem test_witness_word : State.reset.mem.wf = true ∧ 0xFFFFFFFFFFFFFFFC + 4 ≤ 2 ^ 64 := by decide

/-! #### Whole commands -/

theorem test_witness_command_run :
    twoItems.Inv ∧ twoItems.marked = false ∧ twoItems.inputs = [] ∧ twoItems.active = some (.init 0x1000 0 2 2 1) ∧
      admitsAll twoItems.params (Instr.init 0x1000 0 2 2 1).readFootprint ∧
      admitsAll twoItems.params (Instr.init 0x1000 0 2 2 1).writeFootprint :=
  ⟨twoItems_inv, rfl, rfl, rfl, admitsAll_launch (by decide), admitsAll_launch (by decide)⟩

/-- Two orders of the same two items, both ending without a mark. -/
theorem test_witness_schedules :
    (nextOf (Host.Core.run Sys2Proof.core 2 twoItems)).map State.marked = some false ∧
      (nextOf (Host.Core.run Sys2Proof.core 2 { twoItems with picks := [1], draws := 0 })).map State.marked =
        some false := by decide

theorem test_witness_step_command :
    State.reset.mem.wf = true ∧ State.reset.idleAndClean ∧ State.reset.inputs = [] ∧
      (Instr.step 0x1000 0x2000 32 1 1 32).WellFormed = true ∧ (1#32).toNat ≤ (1#32).toNat ∧
      (32#32).toNat ≤ (32#32).toNat ∧
      admitsAll State.reset.params (Instr.step 0x1000 0x2000 32 1 1 32).readFootprint ∧
      admitsAll State.reset.params (Instr.step 0x1000 0x2000 32 1 1 32).writeFootprint :=
  ⟨rfl, ⟨rfl, rfl, rfl, rfl⟩, rfl, by decide, by decide, by decide, admitsAll_launch (by decide),
    admitsAll_launch (by decide)⟩

theorem test_witness_init_command :
    (Instr.init 0x1000 0 1 2 3).WellFormed = true ∧
      admitsAll State.reset.params (Instr.init 0x1000 0 1 2 3).writeFootprint ∧ 0 < (1#32).toNat ∧ 2 < (3#32).toNat :=
  ⟨by decide, admitsAll_launch (by decide), by decide, by decide⟩

theorem test_witness_render_command :
    (Instr.render 0x1000 0x3001 32 1 30 31 4 2).WellFormed = true ∧
      admitsAll State.reset.params (Instr.render 0x1000 0x3001 32 1 30 31 4 2).readFootprint ∧
      admitsAll State.reset.params (Instr.render 0x1000 0x3001 32 1 30 31 4 2).writeFootprint ∧
      (1 + (30#32).toNat < (32#32).toNat ∧ 0 + (31#32).toNat < (32#32).toNat) ∧
      ¬(2 + (30#32).toNat < (32#32).toNat) :=
  ⟨by decide, admitsAll_launch (by decide), admitsAll_launch (by decide), by decide, by decide⟩

theorem test_witness_run_program :
    let i := Instr.init 0x1000 0 1 1 2
    let s := { State.reset with inputs := runProgram launchParams i }
    s.Inv ∧ s.idleAndClean ∧ i.WellFormed = true ∧ s.inputs = runProgram s.params i ∧
      admitsAll s.params i.readFootprint ∧ admitsAll s.params i.writeFootprint :=
  ⟨⟨rfl, rfl, rfl, fun _ => rfl, fun _ h => absurd h (by simp [State.reset]),
      fun _ h => absurd h (by simp [State.reset]), .inl rfl⟩,
    ⟨rfl, rfl, rfl, rfl⟩, by decide, rfl, admitsAll_launch (by decide), admitsAll_launch (by decide)⟩

end Sys2Proof.Tests
end

section
/-! Proofs of 00_scope.md: what every step keeps of the open parameters (R9). -/

namespace Sys2Proof.Machine

/-- A command reads the open parameters and never sets them, at its submission and at each of its work items. -/
theorem exec_params {i : Instr} {s t : State} (h : exec i s = .next t) : t.params = s.params := by
  rcases exec_cases i s with ⟨-, c, he⟩ | ⟨-, -, he⟩ | ⟨-, -, he⟩ | ⟨p, -, -, he⟩ <;>
    obtain rfl := Host.Outcome.next.inj (he.symm.trans h)
  · exact State.refuse_params s _
  · exact State.start_params s i
  · exact State.withPending_params s []
  · exact State.finishItem_params s i p _

/-- No host action is a write of the open parameters; one that runs a command leaves them to `exec`. -/
theorem HostEffect.params_eq {a : HostAction} {s t : State} {o : Host.Outcome State Fault Refusal}
    (h : HostEffect a s o) (ho : o = .next t) : t.params = s.params := by
  cases h with
  | command i _ => exact exec_params ho
  | _ => obtain rfl := Host.Outcome.next.inj ho; simp

/-- R9: no step changes the open parameters, whoever moves. -/
theorem step_params {s t : State} (h : step s = .next t) : t.params = s.params := by
  obtain ⟨-, ⟨n, a, rest, -, he⟩ | ⟨i, l, -, he⟩ | ⟨-, rfl⟩⟩ := step_next_cases h
  · exact (he.params_eq rfl).trans (s.setInputs_params rest)
  · exact (exec_params he).trans (s.setInputs_params l)
  · rfl

/-- Settles O38: the host's move, the active command's and the idle step each keep the parameters. -/
theorem stepKeepsParameters : Obligations.StepKeepsParameters := fun _ _ => step_params

end Sys2Proof.Machine
end

section
/-! Proofs of 10_state.md: the invariant of every state a run reaches (R20, R29, R33, R34), and who writes DESC (R25). -/

namespace Sys2Proof.Machine

/-! ### Marks (R33) -/

theorem State.marked_eq_false_iff {s : State} : s.marked = false ↔ s.faulted = none ∧ s.refused = none := by
  simp [State.marked]

/-- Settles O37: `step` looks at the marks before whatever is due. -/
theorem markedStateHasNoStep : Obligations.MarkedStateHasNoStep := by
  refine ⟨fun s f hf => ?_, fun s r hf hr => ?_, fun s t h => State.marked_eq_false_iff.1 (step_next_cases h).1⟩
  · rw [step, hf]
  · simp only [step, hf, hr]

/-! ### The state after reset (R34) -/

/-- Settles O36: the fields of `State.reset`, each DESC register being one of sixteen unwritten ones. -/
theorem resetState : Obligations.ResetState :=
  ⟨fun _ => Vector.getElem_replicate _, rfl, rfl, rfl, rfl, rfl, rfl⟩

/-- With no command, the invariant asks for canonical memories, BUSY = 0, nothing pending and at most one mark. -/
theorem State.Inv.of_idle {s : State} (hmem : s.mem.wf = true) (hold : s.before.wf = true) (hbusy : s.busy = false)
    (hactive : s.active = none) (hpending : s.pending = []) (hmark : s.faulted = none ∨ s.refused = none) :
    s.Inv where
  memory := hmem
  oldMemory := hold
  busyActive := by rw [hbusy, hactive]; rfl
  idle _ := hpending
  accepted i h := absurd (hactive.symm.trans h) (Option.some_ne_none i).symm
  running i h := absurd (hactive.symm.trans h) (Option.some_ne_none i).symm
  oneMark := hmark

/-- Settles O35: the memories are empty, no command is active and no mark is set. -/
theorem resetMeetsInvariant : Obligations.ResetMeetsInvariant :=
  .of_idle State.reset_mem_wf rfl rfl rfl rfl (.inl rfl)

/-! ### What each operation keeps of the invariant -/

section
variable {s : State} (hs : s.Inv)
include hs

/-! Updates of fields the invariant does not speak of. -/

theorem State.Inv.setInputs (l : List Input) : (s.setInputs l).Inv := { hs with }
theorem State.Inv.writeDesc (k : Fin 16) (v : Word) : (s.writeDesc k v).Inv := { hs with }
theorem State.Inv.answer (r : Reply) : (s.answer r).Inv := { hs with }
theorem State.Inv.useDraws (addr n : Nat) : (s.useDraws addr n).Inv := { hs with }
theorem State.Inv.usePick : s.usePick.Inv := { hs with }

/-! A mark, on a state that does not carry the other one (R33). -/

theorem State.Inv.refuse (hf : s.faulted = none) (r : Refusal) : (s.refuse r).Inv := { hs with oneMark := .inl hf }
theorem State.Inv.markFault (hr : s.refused = none) (f : Fault) : (s.markFault f).Inv :=
  { hs with oneMark := .inr hr }

/-- A store that lies in memory keeps the canonical form (R50), and the rest of the invariant. -/
theorem State.Inv.storeBytes {a : Nat} {bs : List Byte} (hb : a + bs.length ≤ addressSpace) :
    (s.storeBytes a bs).Inv := { hs with memory := Mem.wf_writeBytes hs.memory hb }

/-- R260: reset ends the command, whatever was running. -/
theorem State.Inv.resetBlock : s.resetBlock.Inv := .of_idle hs.memory hs.oldMemory rfl rfl rfl hs.oneMark

/-- R206: keeping a part of the pending items keeps the invariant: with none kept the command ends, and else it goes on
with items of its own index space, none twice. -/
theorem State.Inv.withPending {rest : List Item} (hrest : rest.Sublist s.pending) : (s.withPending rest).Inv := by
  by_cases hnil : rest = []
  · subst hnil
    exact .of_idle hs.memory hs.oldMemory rfl rfl rfl hs.oneMark
  · have hactive := s.withPending_active_of_ne hnil
    have hbusy := s.withPending_busy_of_ne hnil
    exact { hs with
      busyActive := by rw [hactive, hbusy, hs.busyActive]
      idle := fun h => List.sublist_nil.1 (hs.idle (hactive ▸ h) ▸ hrest)
      accepted := fun i h => hs.accepted i (hactive ▸ h)
      running := fun i h => ⟨hnil, hrest.trans (hs.running i (hactive ▸ h)).2⟩ }

/-- R203: the performed item leaves the pending ones. -/
theorem State.Inv.retire (p : Item) : (s.retire p).Inv := hs.withPending List.erase_sublist

/-- R201: an accepted doorbell starts a command with items of its index space, or one that completes at once (R93). -/
theorem State.Inv.start {i : Instr} (hw : i.WellFormed = true) : (s.start i).Inv := by
  by_cases hnil : i.itemsAtStart = []
  · exact .of_idle hs.memory hs.memory (by simp [hnil]) (by simp [hnil]) hnil hs.oneMark
  · have hactive : (s.start i).active = some i := by simp [hnil]
    exact { hs with
      oldMemory := hs.memory
      busyActive := by simp [hnil]
      idle := fun h => absurd (hactive.symm.trans h) (Option.some_ne_none i)
      accepted := fun j h => Option.some.inj (hactive.symm.trans h) ▸ hw
      running := fun j h => Option.some.inj (hactive.symm.trans h) ▸ ⟨hnil, itemsAtStart_sublist i⟩ }

/-- R203, R244: an item retires, storing in memory if it stores, or sets the fault mark. -/
theorem State.Inv.finishItem (hr : s.refused = none) {i : Instr} {p : Item} {e : ItemEffect}
    (he : ∀ a bs, e = .store a bs → a + bs.length ≤ addressSpace) : (s.finishItem i p e).Inv := by
  cases e with
  | skip => exact hs.usePick.retire p
  | store a bs => exact (hs.usePick.retire p).storeBytes (he a bs rfl)
  | unadmitted a => exact hs.markFault hr _

end

/-! ### What every step keeps of the invariant -/

/-- A step of a command, its submission or one of its items, keeps the invariant. -/
theorem exec_keeps_inv {i : Instr} {s t : State} (hs : s.Inv) (hm : s.marked = false) (h : exec i s = .next t) :
    t.Inv := by
  obtain ⟨hf, hr⟩ := State.marked_eq_false_iff.1 hm
  rcases exec_cases i s with ⟨-, c, he⟩ | ⟨-, hw, he⟩ | ⟨-, -, he⟩ | ⟨p, -, -, he⟩ <;>
    obtain rfl := Host.Outcome.next.inj (he.symm.trans h)
  · exact hs.refuse hf _
  · exact hs.start hw
  · exact hs.withPending (List.nil_sublist _)
  · exact hs.finishItem hr fun _ _ => itemOf_store_bound

/-- An action of the host keeps the invariant. -/
theorem HostEffect.keeps_inv {a : HostAction} {s t : State} {o : Host.Outcome State Fault Refusal}
    (h : HostEffect a s o) (ho : o = .next t) (hs : s.Inv) (hm : s.marked = false) : t.Inv := by
  obtain ⟨hf, hr⟩ := State.marked_eq_false_iff.1 hm
  cases h with
  | command i _ => exact exec_keeps_inv hs hm ho
  | refused r => exact Host.Outcome.next.inj ho ▸ hs.refuse hf r
  | race i _ => exact Host.Outcome.next.inj ho ▸ hs.markFault hr _
  | nothing => exact Host.Outcome.next.inj ho ▸ hs
  | register k v _ => exact Host.Outcome.next.inj ho ▸ hs.writeDesc k v
  | read v => exact Host.Outcome.next.inj ho ▸ hs.answer _
  | readBytes addr n bs => exact Host.Outcome.next.inj ho ▸ (hs.useDraws addr n).answer _
  | write addr bytes _ hb _ => exact Host.Outcome.next.inj ho ▸ hs.storeBytes hb
  | reset _ => exact Host.Outcome.next.inj ho ▸ hs.resetBlock

/-- Settles O34: the host's move, the active command's and the idle step each keep the invariant. -/
theorem stepKeepsInvariant : Obligations.StepKeepsInvariant := by
  intro s t hs h
  obtain ⟨hm, ⟨n, a, rest, -, he⟩ | ⟨i, l, -, he⟩ | ⟨-, rfl⟩⟩ := step_next_cases h
  · exact he.keeps_inv rfl (hs.setInputs rest) hm
  · exact exec_keeps_inv (hs.setInputs l) hm he
  · exact hs

/-! ### Who writes the descriptor registers (R25) -/

/-- A command works from its snapshot: neither its submission nor an item of it writes DESC (R25, R201). -/
theorem exec_desc {i : Instr} {s t : State} (h : exec i s = .next t) : t.desc = s.desc := by
  rcases exec_cases i s with ⟨-, c, he⟩ | ⟨-, -, he⟩ | ⟨-, -, he⟩ | ⟨p, -, -, he⟩ <;>
    obtain rfl := Host.Outcome.next.inj (he.symm.trans h)
  · exact State.refuse_desc s _
  · exact State.start_desc s i
  · exact State.withPending_desc s []
  · exact State.finishItem_desc s i p _

/-- What an action of the host does to DESC: nothing, unless it is a reset or the write of one register. -/
theorem HostEffect.desc_cases {a : HostAction} {s t : State} {o : Host.Outcome State Fault Refusal}
    (h : HostEffect a s o) (ho : o = .next t) :
    t.desc = s.desc ∨ a = .reset ∨
      ∃ (j : Fin 16) (v : Word), a = .writeReg (regAddr s.params (.desc j)) 32 v ∧
        t.desc = s.desc.set j (.written v) := by
  cases h with
  | command i _ => exact .inl (exec_desc ho)
  | reset ha => exact .inr (.inl ha)
  | register j v ha => exact .inr (.inr ⟨j, v, ha, Host.Outcome.next.inj ho ▸ State.writeDesc_desc s j v⟩)
  | _ => obtain rfl := Host.Outcome.next.inj ho; exact .inl (by simp)

/-- A register that differs after the write of one register is that register. -/
theorem eq_of_getElem_set_ne {regs : Vector DescReg 16} {j k : Fin 16} {d : DescReg}
    (h : (regs.set j d)[k] ≠ regs[k]) : j = k := by
  by_contra hjk
  exact h (Vector.getElem_set_ne j.isLt k.isLt (Fin.val_ne_of_ne hjk))

/-- Settles O39: only a host move can change DESC, and of those only a reset or the write of the changed register. -/
theorem onlyHostChangesDescriptor : Obligations.OnlyHostChangesDescriptor := by
  intro s t k h hne
  obtain ⟨-, ⟨n, a, rest, hin, he⟩ | ⟨i, l, -, he⟩ | ⟨-, rfl⟩⟩ := step_next_cases h
  · refine ⟨n, a, rest, hin, ?_⟩
    rcases he.desc_cases rfl with hd | hreset | ⟨j, v, ha, hd⟩
    · exact absurd (by rw [hd]; rfl) hne
    · exact .inl hreset
    · rw [hd] at hne ⊢
      obtain rfl := eq_of_getElem_set_ne hne
      exact .inr ⟨v, ha, Vector.getElem_set_self j.isLt⟩
  · exact absurd (by rw [exec_desc he]; rfl) hne
  · exact absurd rfl hne

end Sys2Proof.Machine
end

section
/-! Proofs of 20_memory.md: words are little-endian in memory (R53). -/

namespace Sys2Proof.Machine

/-- Appending below puts the upper bits at their place value. -/
theorem toNat_append_eq_add {n w : Nat} (x : BitVec n) (y : BitVec w) :
    (x ++ y).toNat = 2 ^ w * x.toNat + y.toNat := by
  rw [BitVec.toNat_append, ← Nat.shiftLeft_add_eq_or_of_lt y.isLt, Nat.shiftLeft_eq, Nat.mul_comm]

/-- R53: byte `k` of a word is its digit of place value `2 ^ (8 * k)`. -/
theorem getElem_wordBytes (v : Word) {k : Nat} (hk : k < (wordBytes v).length) :
    (wordBytes v)[k] = BitVec.ofNat 8 (v.toNat / 2 ^ (8 * k)) := by
  have hdigit : (wordBytes v)[k] = v.extractLsb' (8 * k) 8 := by
    match k, hk with
    | 0, _ | 1, _ | 2, _ | 3, _ => rfl
  rw [hdigit, BitVec.extractLsb', Nat.shiftRight_eq_div_pow]

/-- R53: the word at `a` as a number, the byte at the lowest address least significant. -/
theorem Mem.toNat_readWord (m : Mem) (a : Nat) :
    (m.readWord a).toNat =
      (m.read a).toNat + 2 ^ 8 * (m.read (a + 1)).toNat + 2 ^ 16 * (m.read (a + 2)).toNat +
        2 ^ 24 * (m.read (a + 3)).toNat := by
  rw [Mem.readWord, toNat_append_eq_add, toNat_append_eq_add, toNat_append_eq_add]
  omega

/-- Settles O52: the bytes written are the word's digits, and the bytes read are joined at their place values. -/
theorem wordsAreLittleEndian : Obligations.WordsAreLittleEndian := by
  intro m a v hm ha
  refine ⟨fun k hk => ?_, m.toNat_readWord a, Mem.readWord_writeWord hm ha v⟩
  exact (Mem.read_writeBytes_inside hm ha hk).trans (getElem_wordBytes v hk)

end Sys2Proof.Machine
end

section
/-! Proofs of 30_encoding.md: the decoder and the encoder are inverse to each other (R83 to R88, R91), and the host
program RUN completes (R92). -/

namespace Sys2Proof

/-! ### Encoding -/

theorem wordsZero_iff {d : Descriptor} {ks : List (Fin 16)} : wordsZero d ks = true ↔ ∀ k ∈ ks, d[k] = 0#32 := by
  simp [wordsZero]

theorem unlessReserved_of_zero {d : Descriptor} {ks : List (Fin 16)} {i : Instr} (h : ∀ k ∈ ks, d[k] = 0#32) :
    unlessReserved d ks i = .ok i := if_pos (wordsZero_iff.2 h)

theorem unlessReserved_eq_ok {d : Descriptor} {ks : List (Fin 16)} {i j : Instr}
    (h : unlessReserved d ks i = .ok j) : i = j ∧ ∀ k ∈ ks, d[k] = 0#32 := by
  rw [unlessReserved] at h
  split at h
  · exact ⟨Except.ok.inj h, wordsZero_iff.1 ‹_›⟩
  · exact nomatch h

/-- R84, R87, R88: what a descriptor that decodes is, by its opcode word. -/
theorem decode_eq_ok {d : Descriptor} {i : Instr} (h : decode d = .ok i) :
    (d[0] = 0#32 ∧ Instr.init (joinAddr d[2] d[1]) d[5] d[7] d[11] d[12] = i ∧ ∀ k ∈ reservedOfInit, d[k] = 0#32) ∨
      (d[0] = 1#32 ∧ Instr.step (joinAddr d[2] d[1]) (joinAddr d[4] d[3]) d[6] d[7] d[11] d[12] = i ∧
        ∀ k ∈ reservedOfStep, d[k] = 0#32) ∨
      (d[0] = 2#32 ∧ Instr.render (joinAddr d[2] d[1]) (joinAddr d[4] d[3]) d[6] d[7] d[8] d[9] d[10] d[12] = i ∧
        ∀ k ∈ reservedOfRender, d[k] = 0#32) := by
  rw [decode] at h
  split at h
  · exact .inl ⟨‹_›, unlessReserved_eq_ok h⟩
  · split at h
    · exact .inr (.inl ⟨‹_›, unlessReserved_eq_ok h⟩)
    · split at h
      · exact .inr (.inr ⟨‹_›, unlessReserved_eq_ok h⟩)
      · exact nomatch h

/-- R83, R85: the encoder's words satisfy the decoder's opcode and reserved-word tests, and an address is joined from the
two words it was cut into. -/
theorem decode_encode (i : Instr) : decode (encode i) = .ok i := by
  cases i with
  | init grid seed w ex ey =>
    obtain ⟨hop, hzero⟩ := Laws.ReservedZero.init grid seed w ex ey
    rw [decode, if_pos hop, unlessReserved_of_zero hzero]
    exact congrArg (fun a => Except.ok (Instr.init a seed w ex ey)) (joinAddr_hi_lo grid)
  | step cur nxt g w ex ey =>
    obtain ⟨hop, hzero⟩ := Laws.ReservedZero.step cur nxt g w ex ey
    rw [decode, hop, if_neg (by decide), if_pos rfl, unlessReserved_of_zero hzero]
    exact congrArg₂ (fun a b => Except.ok (Instr.step a b g w ex ey)) (joinAddr_hi_lo cur) (joinAddr_hi_lo nxt)
  | render grid out g w xo yo width ey =>
    obtain ⟨hop, hzero⟩ := Laws.ReservedZero.render grid out g w xo yo width ey
    rw [decode, hop, if_neg (by decide), if_neg (by decide), if_pos rfl, unlessReserved_of_zero hzero]
    exact congrArg₂ (fun a b => Except.ok (Instr.render a b g w xo yo width ey)) (joinAddr_hi_lo grid)
      (joinAddr_hi_lo out)

/-- A descriptor is its sixteen words. -/
theorem descriptorOf_getElem (d : Descriptor) : descriptorOf (fun k => d[k]) = d := by
  ext k hk
  interval_cases k <;> rfl

/-- R88: the words a command is read from are its encoding's, and every other word of the descriptor is zero in both. -/
theorem encode_of_decode {d : Descriptor} {i : Instr} (h : decode d = .ok i) : encode i = d := by
  rw [← descriptorOf_getElem d]
  rcases decode_eq_ok h with ⟨hop, rfl, hzero⟩ | ⟨hop, rfl, hzero⟩ | ⟨hop, rfl, hzero⟩
  · simp only [reservedOfInit, List.forall_mem_cons] at hzero
    simp [encode, descriptorOf, hop, hzero]
  · simp only [reservedOfStep, List.forall_mem_cons] at hzero
    simp [encode, descriptorOf, hop, hzero]
  · simp only [reservedOfRender, List.forall_mem_cons] at hzero
    simp [encode, descriptorOf, hop, hzero]

/-- Settles O2: both sides of the round trip agree on where each operand stands (`decode_encode`). -/
theorem decodeOfEncodeIsTheCommand : Obligations.DecodeOfEncodeIsTheCommand := decode_encode

/-- Settles O3: no word of a descriptor that decodes is free (`encode_of_decode`). -/
theorem decodedDescriptorIsTheEncoding : Obligations.DecodedDescriptorIsTheEncoding := fun _ _ => encode_of_decode

/-- Settles O1: the decoder is run on each of the four descriptors. -/
theorem writtenOutDescriptorsDecode : Obligations.WrittenOutDescriptorsDecode := ⟨rfl, rfl, rfl, rfl⟩

end Sys2Proof

namespace Sys2Proof.Machine

/-! ### What an item reads and writes lies in the command's footprints (R205) -/

/-- Admission of a range is admission of every access inside it. -/
theorem admits_of_admitsAll {p : Params} {r : ByteRange} (h : admitsAll p r) {a n : Nat} (h0 : 0 < n) (hlo : r.lo ≤ a)
    (hhi : a + n ≤ r.hi) : p.admits a n = true :=
  admits_of_bytes h0 fun k hk => h (a + k) (ByteRange.holds_iff.2 (by omega))

theorem ringPrev_lt {n i : Nat} (h : i < n) : ringPrev n i < n := by
  rw [ringPrev]
  split <;> omega

theorem ringNext_lt {n i : Nat} (h : i < n) : ringNext n i < n := by
  rw [ringNext]
  split <;> omega

/-- R142, R145: the nine words fetched are words of the grid. -/
theorem mem_hoodAddrs {base G W x y r : Nat} (hx : x < W) (hy : y < G) (h : r ∈ hoodAddrs base G W x y) :
    ∃ y' x', y' < G ∧ x' < W ∧ r = gridWordAddr base W y' x' := by
  have hpx := ringPrev_lt hx
  have hnx := ringNext_lt hx
  have hpy := ringPrev_lt hy
  have hny := ringNext_lt hy
  simp only [hoodAddrs, List.mem_cons, List.not_mem_nil, or_false] at h
  rcases h with h | h | h | h | h | h | h | h | h <;> exact ⟨_, _, ‹_›, ‹_›, h⟩

/-- R52: a word of a grid lies in its `4 * G * W` bytes. -/
theorem gridWordAddr_inside {base G W y x : Nat} (hy : y < G) (hx : x < W) :
    base ≤ gridWordAddr base W y x ∧ gridWordAddr base W y x + 4 ≤ base + 4 * G * W := by
  have : y * W + x < G * W := rowMajor_lt hy hx
  rw [gridWordAddr, wordAddr, wordIndex, Nat.mul_assoc]
  omega

/-- R184: the word owning a column of the grid is a word of its row. -/
theorem renderReadAddr_inside {grid out : Addr} {g w xo yo width ey : Word} {gx gy : Nat}
    (hw : (Instr.render grid out g w xo yo width ey).WellFormed = true) (hx : gx < natOfI32 g) (hy : gy < natOfI32 g) :
    grid.toNat ≤ renderReadAddr grid w gx gy ∧
      renderReadAddr grid w gx gy + 4 ≤ grid.toNat + 4 * natOfI32 g * natOfI32 w := by
  obtain ⟨hg0, hw0, -, -, -, hgw, -⟩ := wellFormed_render hw
  have hcol : gx / 32 < natOfI32 w := by
    rw [natOfI32_eq_toNat hg0] at hx
    rw [natOfI32_eq_toNat hw0]
    omega
  exact gridWordAddr_inside hy hcol

/-- All accesses admitted: the item does not fault. -/
theorem guardedStore_ne_unadmitted {p : Params} {l : List (Nat × Nat)} (h : ∀ c ∈ l, p.admits c.1 c.2 = true)
    (a : Nat) (bs : List Byte) (b : Nat) : guardedStore p l a bs ≠ .unadmitted b := by
  rw [guardedStore_admitted h]
  exact ItemEffect.noConfusion

theorem initItem_ne_unadmitted {p : Params} {grid : Addr} {seed w ex ey : Word} {it : Item}
    (hwf : admitsAll p (Instr.init grid seed w ex ey).writeFootprint)
    (hit : it ∈ (Instr.init grid seed w ex ey).indexSpace) (a : Nat) : initItem p grid seed w it ≠ .unadmitted a := by
  obtain ⟨hu, hv⟩ := mem_grid2D.1 hit
  rcases Nat.lt_or_ge it.1 (natOfI32 w) with hx | hx
  · rw [initItem_inRange hx]
    refine guardedStore_ne_unadmitted ?_ _ _ a
    have hin := gridWordAddr_inside (base := grid.toNat) hv hx
    rw [Instr.writeFootprint, if_neg (by omega)] at hwf
    simp only [List.forall_mem_singleton]
    exact admits_of_admitsAll hwf (by omega) hin.1 hin.2
  · rw [initItem_skip hx]
    exact ItemEffect.noConfusion

theorem stepItem_ne_unadmitted {p : Params} {cur nxt : Addr} {g w ex ey : Word}
    (hrf : admitsAll p (Instr.step cur nxt g w ex ey).readFootprint)
    (hwf : admitsAll p (Instr.step cur nxt g w ex ey).writeFootprint) (m : Mem) (it : Item) (a : Nat) :
    stepItem p m cur nxt g w it ≠ .unadmitted a := by
  by_cases hskip : natOfI32 g ≤ it.2 ∨ natOfI32 w ≤ it.1
  · rw [stepItem_skip hskip]
    exact ItemEffect.noConfusion
  · have hy : it.2 < natOfI32 g := by omega
    have hx : it.1 < natOfI32 w := by omega
    rw [stepItem_inRange hx hy]
    refine guardedStore_ne_unadmitted ?_ _ _ a
    simp only [List.forall_mem_append, List.forall_mem_map, List.forall_mem_singleton]
    refine ⟨fun r hr => ?_, ?_⟩
    · obtain ⟨y', x', hy', hx', rfl⟩ := mem_hoodAddrs hx hy hr
      have hin := gridWordAddr_inside (base := cur.toNat) hy' hx'
      exact admits_of_admitsAll hrf (by omega) hin.1 hin.2
    · have hin := gridWordAddr_inside (base := nxt.toNat) hy hx
      exact admits_of_admitsAll hwf (by omega) hin.1 hin.2

theorem renderItem_ne_unadmitted {p : Params} {grid out : Addr} {g w xo yo width ey : Word} {it : Item}
    (hw : (Instr.render grid out g w xo yo width ey).WellFormed = true)
    (hrf : admitsAll p (Instr.render grid out g w xo yo width ey).readFootprint)
    (hwf : admitsAll p (Instr.render grid out g w xo yo width ey).writeFootprint)
    (hit : it ∈ (Instr.render grid out g w xo yo width ey).indexSpace) (m : Mem) (a : Nat) :
    renderItem p m grid out g w xo yo width it ≠ .unadmitted a := by
  obtain ⟨hu, hv⟩ := mem_grid2D.1 hit
  by_cases hskip : natOfI32 g ≤ it.1 + natOfI32 xo ∨ natOfI32 g ≤ it.2 + natOfI32 yo
  · rw [renderItem_skip hskip]
    exact ItemEffect.noConfusion
  · have hx : it.1 + natOfI32 xo < natOfI32 g := by omega
    have hy : it.2 + natOfI32 yo < natOfI32 g := by omega
    rw [renderItem_inRange hx hy]
    refine guardedStore_ne_unadmitted ?_ _ _ a
    have hin := renderReadAddr_inside hw hx hy
    have hout : it.2 * natOfI32 width + it.1 < ey.toNat * natOfI32 width := rowMajor_lt hv hu
    rw [Nat.mul_comm ey.toNat] at hout
    simp only [List.forall_mem_cons]
    refine ⟨admits_of_admitsAll hrf (by omega) hin.1 hin.2, admits_of_admitsAll hwf (by omega) ?_ ?_, nofun⟩ <;>
      simp only [Instr.writeFootprint, renderStoreAddr, pixelAddr] <;> omega

/-- R205, R244: with both footprints admitted, no item of an accepted command faults. -/
theorem itemOf_ne_unadmitted {i : Instr} {p : Params} {it : Item} (hw : i.WellFormed = true)
    (hrf : admitsAll p i.readFootprint) (hwf : admitsAll p i.writeFootprint) (hit : it ∈ i.indexSpace) (m : Mem)
    (a : Nat) : itemOf i p m it ≠ .unadmitted a := by
  cases i with
  | init grid seed w ex ey => exact initItem_ne_unadmitted hwf hit a
  | step cur nxt g w ex ey => exact stepItem_ne_unadmitted hrf hwf m it a
  | render grid out g w xo yo width ey => exact renderItem_ne_unadmitted hw hrf hwf hit m a

/-- Memories that agree on a range agree on the words inside it. -/
theorem readWord_congr {m m' : Mem} {r : ByteRange} (h : ∀ a, r.holds a = true → m.read a = m'.read a) {a : Nat}
    (hlo : r.lo ≤ a) (hhi : a + 4 ≤ r.hi) : m.readWord a = m'.readWord a := by
  have hbyte : ∀ b, a ≤ b → b < a + 4 → m.read b = m'.read b := fun b _ _ => h b (ByteRange.holds_iff.2 (by omega))
  rw [Mem.readWord, Mem.readWord, hbyte (a + 3), hbyte (a + 2), hbyte (a + 1), hbyte a] <;> omega

/-- R145: the nine words fetched are the same in memories that agree on the grid. -/
theorem readHood_congr {m m' : Mem} {base G W x y : Nat}
    (h : ∀ y' x', y' < G → x' < W → m.readWord (gridWordAddr base W y' x') = m'.readWord (gridWordAddr base W y' x'))
    (hx : x < W) (hy : y < G) : readHood m base G W x y = readHood m' base G W x y := by
  have hpx := ringPrev_lt hx
  have hnx := ringNext_lt hx
  have hpy := ringPrev_lt hy
  have hny := ringNext_lt hy
  simp only [readHood, h, hx, hy, hpx, hnx, hpy, hny]

/-- R205: an item of an accepted command reads inside its read footprint only. -/
theorem itemOf_congr {i : Instr} (hw : i.WellFormed = true) {m m' : Mem}
    (h : ∀ a, i.readFootprint.holds a = true → m.read a = m'.read a) (p : Params) (it : Item) :
    itemOf i p m it = itemOf i p m' it := by
  cases i with
  | init grid seed w ex ey => rfl
  | step cur nxt g w ex ey =>
    have hgrid : ∀ y x, y < natOfI32 g → x < natOfI32 w →
        m.readWord (gridWordAddr cur.toNat (natOfI32 w) y x) =
          m'.readWord (gridWordAddr cur.toNat (natOfI32 w) y x) := fun y x hy hx =>
      readWord_congr h (gridWordAddr_inside hy hx).1 (gridWordAddr_inside hy hx).2
    by_cases hskip : natOfI32 g ≤ it.2 ∨ natOfI32 w ≤ it.1
    · rw [itemOf, itemOf, stepItem_skip hskip, stepItem_skip hskip]
    · have hy : it.2 < natOfI32 g := by omega
      have hx : it.1 < natOfI32 w := by omega
      rw [itemOf, itemOf, stepItem_inRange hx hy, stepItem_inRange hx hy, readHood_congr hgrid hx hy]
  | render grid out g w xo yo width ey =>
    by_cases hskip : natOfI32 g ≤ it.1 + natOfI32 xo ∨ natOfI32 g ≤ it.2 + natOfI32 yo
    · rw [itemOf, itemOf, renderItem_skip hskip, renderItem_skip hskip]
    · have hgx : it.1 + natOfI32 xo < natOfI32 g := by omega
      have hgy : it.2 + natOfI32 yo < natOfI32 g := by omega
      have hin := renderReadAddr_inside hw hgx hgy
      rw [itemOf, itemOf, renderItem_inRange hgx hgy, renderItem_inRange hgx hgy, readWord_congr h hin.1 hin.2]

/-- R241: no byte of an accepted command's write footprint is in its read footprint. -/
theorem not_readFootprint_of_writeFootprint {i : Instr} (hw : i.WellFormed = true) {a : Nat}
    (h : i.writeFootprint.holds a = true) : ¬i.readFootprint.holds a = true := by
  obtain ⟨-, -, -, -, -, hdisj⟩ := submissionCheck_eq_none_iff.1 (wellFormed_iff.1 hw)
  exact fun hr => absurd (ByteRange.overlaps_iff.2 ⟨a, hr, h⟩) (by rw [← hasBufferOverlap, hdisj]; decide)

/-! ### A command runs to its end (R203, R206) -/

/-- With its footprints admitted and the host quiet for as many steps as there are items pending, a running command ends
after that many steps, whatever the order of its items. -/
theorem run_active_to_end {s : State} {i : Instr} (hs : s.Inv) (hm : s.marked = false) (ha : s.active = some i)
    (hq : s.quietFor s.pending.length) (hrf : admitsAll s.params i.readFootprint)
    (hwf : admitsAll s.params i.writeFootprint) :
    ∃ t : State, Host.Core.run Sys2Proof.core s.pending.length s = .next t ∧ t.idleAndClean ∧
      t.inputs = inputsAfter s.pending.length s.inputs ∧ t.desc = s.desc ∧ t.params = s.params := by
  have hw := hs.accepted i ha
  obtain ⟨hne, hsub⟩ := hs.running i ha
  obtain ⟨n, hn⟩ : ∃ n, s.pending.length = n + 1 := Nat.exists_eq_succ_of_ne_zero (by simpa using hne)
  rw [hn] at hq ⊢
  obtain ⟨t, hrun, hidle, -, hin, hdesc, hparams, -⟩ :=
    run_items (i := i) (E := itemOf i s.params s.mem) (m0 := s.mem) (R := fun a => i.readFootprint.holds a = true)
      (L := i.indexSpace)
      (fun it _ m hagree => itemOf_congr hw hagree s.params it)
      (fun it hit => itemOf_ne_unadmitted hw hrf hwf hit s.mem)
      (fun it hit a bs he => ⟨itemOf_store_bound he, fun x h1 h2 =>
        not_readFootprint_of_writeFootprint hw (itemOf_store_inside hit he h1 h2)⟩)
      (fun it hit jt hjt hne a bs b cs he he' => itemOf_stores_apart hit hjt hne he he')
      n s hn hsub.subset ((indexSpace_nodup i).sublist hsub) hm hq ha rfl hs.memory fun _ _ => rfl
  exact ⟨t, hrun, hidle, hin, hdesc, hparams⟩

theorem inputsAfter_zero (l : List Input) : inputsAfter 0 l = l := by cases l <;> rfl

/-- R201, R206: the same from the accepted doorbell on, a command with nothing to perform being complete at once. -/
theorem run_start_to_end {s : State} {i : Instr} (hs : s.Inv) (hm : s.marked = false) (hw : i.WellFormed = true)
    (hq : s.quietFor i.itemsAtStart.length) (hrf : admitsAll s.params i.readFootprint)
    (hwf : admitsAll s.params i.writeFootprint) :
    ∃ t : State, Host.Core.run Sys2Proof.core i.itemsAtStart.length (s.start i) = .next t ∧ t.idleAndClean ∧
      t.inputs = inputsAfter i.itemsAtStart.length s.inputs ∧ t.desc = s.desc ∧ t.params = s.params := by
  by_cases hnil : i.itemsAtStart = []
  · refine ⟨s.start i, by rw [hnil]; rfl, ⟨hm, by simp [hnil], by simp [hnil], hnil⟩, ?_, rfl, rfl⟩
    rw [hnil]
    exact (inputsAfter_zero s.inputs).symm
  · exact run_active_to_end (hs.start hw) hm (by simp [hnil]) hq hrf hwf

/-! ### The host program RUN (R92) -/

/-- A run of one step more ends where the first step's next state leads. -/
theorem run_succ_eq_next {k : Nat} {s t : State} (h : Host.Core.run Sys2Proof.core (k + 1) s = .next t) :
    ∃ u : State, step s = .next u ∧ Host.Core.run Sys2Proof.core k u = .next t := by
  simp only [Host.Core.run] at h
  split at h
  · exact ⟨_, ‹_›, h⟩
  · nomatch h
  · nomatch h

/-- Runs follow one another. -/
theorem run_trans {j k : Nat} {s u : State} (h : Host.Core.run Sys2Proof.core j s = .next u) :
    Host.Core.run Sys2Proof.core (j + k) s = Host.Core.run Sys2Proof.core k u := by
  induction j generalizing s with
  | zero =>
    obtain rfl := Host.Outcome.next.inj h
    rw [Nat.zero_add]
  | succ j ih =>
    obtain ⟨v, hstep, hrun⟩ := run_succ_eq_next h
    rw [Nat.add_right_comm, run_of_step hstep]
    exact ih hrun

/-- R25 (H1): the host's write of a descriptor register. -/
theorem step_of_descWrite {s : State} {k : Fin 16} {v : Word} {rest : List Input}
    (h : s.hostMoves (.writeReg (regAddr s.params (.desc k)) 32 v) rest) :
    step s = .next ((s.setInputs rest).writeDesc k v) := by
  rw [step_of_hostMoves h, hostStep, hostWriteReg, State.setInputs_params, regAt_regAddr]

/-- R27 (H2): the host's read of STATUS. -/
theorem step_of_statusRead {s : State} {rest : List Input}
    (h : s.hostMoves (.readReg (regAddr s.params .status) 32) rest) :
    step s = .next ((s.setInputs rest).answer (.word s.statusWord)) := by
  rw [step_of_hostMoves h, hostStep, hostReadReg, State.setInputs_params, regAt_regAddr]
  rfl

/-- R201: the doorbell of an idle block whose registers hold the encoding of an accepted command starts it. -/
theorem step_of_acceptedDoorbell {s : State} {i : Instr} {a : HostAction} {rest : List Input}
    (h : s.hostMoves a rest) (hd : s.isDoorbell a) (hidle : s.idleAndClean) (hdesc : s.desc = writtenRegs (encode i))
    (hw : i.WellFormed = true) : step s = .next ((s.setInputs rest).start i) := by
  obtain ⟨-, hbusy, hactive, -⟩ := hidle
  rw [step_of_doorbell h hd, doorbell, State.setInputs_busy, hbusy, State.setInputs_desc, hdesc, snapshot_writtenRegs]
  simp only [decode_encode, Bool.false_eq_true, if_false]
  rw [exec_idle (s := s.setInputs rest) hactive, wellFormed_iff.1 hw]

/-- The registers after the host has written the listed words of a descriptor. -/
def loadRegs (d : Descriptor) : List (Fin 16) → Vector DescReg 16 → Vector DescReg 16
  | [], regs => regs
  | k :: ks, regs => loadRegs d ks (regs.set k (.written d[k]))

theorem getElem_loadRegs (d : Descriptor) (ks : List (Fin 16)) (regs : Vector DescReg 16) (k : Fin 16) :
    (loadRegs d ks regs)[k] = if k ∈ ks then .written d[k] else regs[k] := by
  induction ks generalizing regs with
  | nil => rfl
  | cons j ks ih =>
    rw [loadRegs, ih]
    by_cases hj : k = j
    · subst hj
      simp
    · have hval : j.val ≠ k.val := fun h => hj (Fin.ext h.symm)
      simp [hj, Vector.getElem_set_ne _ _ hval]

theorem getElem_writtenRegs (d : Descriptor) (k : Fin 16) : (writtenRegs d)[k] = .written d[k] := by
  fin_cases k <;> rfl

/-- Writing all sixteen words leaves nothing of what the registers held. -/
theorem loadRegs_finRange (d : Descriptor) (regs : Vector DescReg 16) :
    loadRegs d (List.finRange 16) regs = writtenRegs d := by
  ext k hk : 1
  have hget := getElem_loadRegs d (List.finRange 16) regs ⟨k, hk⟩
  rw [if_pos (List.mem_finRange _), ← getElem_writtenRegs] at hget
  exact hget

/-- R91, R215 H1: one step for each descriptor write, which changes its register and nothing else. -/
theorem run_descWrites (d : Descriptor) (ks : List (Fin 16)) (rest : List Input) {s : State} (hm : s.marked = false)
    (hin : s.inputs = ks.map (descWrite s.params d) ++ rest) :
    Host.Core.run Sys2Proof.core ks.length s = .next { s with desc := loadRegs d ks s.desc, inputs := rest } := by
  induction ks generalizing s with
  | nil =>
    rw [List.map_nil, List.nil_append] at hin
    subst hin
    rfl
  | cons k ks ih =>
    rw [List.length_cons, run_of_step (step_of_descWrite ⟨hm, hin⟩)]
    exact ih hm rfl

/-- The state with the registers holding a descriptor and `rest` to come from the host. -/
def State.loaded (s : State) (d : Descriptor) (rest : List Input) : State :=
  { s with desc := writtenRegs d, inputs := rest }

/-- R91, R201: the descriptor writes and the doorbell of an accepted command, on an idle block, start it. -/
theorem run_submitProgram {s : State} {i : Instr} {rest : List Input} (hidle : s.idleAndClean)
    (hw : i.WellFormed = true) (hin : s.inputs = submitProgram s.params i ++ rest) :
    Host.Core.run Sys2Proof.core 17 s = .next ((s.loaded (encode i) rest).start i) := by
  rw [submitProgram, List.append_assoc] at hin
  have hwrites := run_descWrites (encode i) (List.finRange 16) _ hidle.1 hin
  rw [List.length_finRange, loadRegs_finRange] at hwrites
  rw [run_trans (k := 1) hwrites]
  exact run_of_step (k := 0)
    (step_of_acceptedDoorbell (rest := rest) ⟨hidle.1, rfl⟩ ⟨1#32, rfl, rfl⟩ hidle rfl hw)

/-- Settles O58: the submission loads and starts the command, the command runs to its end while the read of STATUS waits,
and that read finds the block idle. -/
theorem runProgramCompletes : Obligations.RunProgramCompletes := by
  intro s i hs hidle hw hin hrf hwf
  have hsubmit := run_submitProgram hidle hw hin
  have hquiet : (s.loaded (encode i) [waitFor s.params i]).quietFor i.itemsAtStart.length := by
    intro w a rest h
    obtain ⟨rfl, -⟩ := Input.mk.inj (List.cons.inj h).1
    exact le_rfl
  obtain ⟨u, hrun, ⟨hm, hbusy, hactive, hpending⟩, hinputs, hdesc, hparams⟩ :=
    run_start_to_end (s := s.loaded (encode i) [waitFor s.params i]) { hs with } hidle.1 hw hquiet hrf hwf
  have hdue : u.hostMoves (.readReg (regAddr u.params .status) 32) [] := by
    refine ⟨hm, hinputs.trans ?_⟩
    rw [hparams]
    exact congrArg (fun n => [Input.mk n _]) (Nat.sub_self _)
  refine ⟨(u.setInputs []).answer (.word u.statusWord), ?_, ⟨hm, hbusy, hactive, hpending⟩, rfl, ?_, hdesc⟩
  · rw [show 18 + i.itemsAtStart.length = 17 + (i.itemsAtStart.length + 1) by omega, run_trans hsubmit, run_trans hrun]
    exact run_of_step (k := 0) (step_of_statusRead hdue)
  · rw [State.answer_reply, State.statusWord, hbusy]
    rfl

end Sys2Proof.Machine
end

section
/-! Proofs of 40_generator_init.md: the generator (R112, R113), the INIT item and what it leaves unchanged (R117 to
R122), and the whole INIT command. -/

namespace Sys2Proof.Machine

/-! ### The generator (R112 to R117) -/

/-- Settles O31: word arithmetic is arithmetic modulo 2^32. -/
theorem generatorAdvance : Obligations.GeneratorAdvance := by
  intro s
  rw [genAdvance, BitVec.toNat_add, BitVec.toNat_mul, pcgMul_toNat, pcgInc_toNat, Nat.mod_add_mod]

/-- Settles O32: each word operation is its arithmetic, and the four top bits are below 16, so the shift is 4 to 19. -/
theorem generatorOutput : Obligations.GeneratorOutput := by
  intro s
  have hs := s.isLt
  refine ⟨genShift s, ((s >>> genShift s) ^^^ s) * pcgOutMul, genShift_eq s, ?_, ?_, ?_, ?_⟩
  · rw [genShift_eq]
    omega
  · rw [genShift_eq]
    omega
  · rw [BitVec.toNat_mul, BitVec.toNat_xor, BitVec.toNat_ushiftRight, Nat.shiftRight_eq_div_pow, pcgOutMul_toNat]
  · rw [genOutput, BitVec.toNat_xor, BitVec.toNat_ushiftRight, Nat.shiftRight_eq_div_pow]

theorem seedMix_eq (m : SeedMix) (x y : Nat) (seed : Word) :
    seedMix m x y seed = BitVec.ofNat 32 x * 2654435761#32 ^^^ BitVec.ofNat 32 y * 0x9E3779B9#32 ^^^ seed := by
  cases m; rfl

theorem initWord_congr {p p' : Params} (hchain : p.prngChain = p'.prngChain) (hmix : p.seedMix = p'.seedMix)
    (x y : Nat) (seed : Word) : initWord p x y seed = initWord p' x y seed := by
  rw [initWord, initWord, hchain, hmix]

/-! ### The INIT item (R118) -/

theorem initStoreAddr_eq {grid : Addr} {w : Word} (h : 0 ≤ w.toInt) (x y : Nat) :
    initStoreAddr grid w (x, y) = grid.toNat + 4 * (y * w.toNat + x) := by
  rw [initStoreAddr, natOfI32_eq_toNat h]
  rfl

/-- An in-range INIT item stores its word, unless that access is turned away (R244). -/
theorem initItem_inRange_cases {grid : Addr} {w : Word} {it : Item} (h : it.1 < natOfI32 w) (p : Params) (seed : Word) :
    (p.admits (initStoreAddr grid w it) 4 = true ∧
        initItem p grid seed w it = .store (initStoreAddr grid w it) (wordBytes (initWord p it.1 it.2 seed))) ∨
      (p.admits (initStoreAddr grid w it) 4 = false ∧
        initItem p grid seed w it = .unadmitted (initStoreAddr grid w it)) := by
  rw [initItem_inRange h]
  rcases guardedStore_cases p [(initStoreAddr grid w it, 4)] (initStoreAddr grid w it)
      (wordBytes (initWord p it.1 it.2 seed)) with ⟨hall, he⟩ | ⟨b, n, hmem, hadm, he⟩
  · exact .inl ⟨hall _ List.mem_cons_self, he⟩
  · obtain ⟨rfl, rfl⟩ := Prod.mk.inj (List.mem_singleton.1 hmem)
    exact .inr ⟨hadm, he⟩

theorem initItem_admitted {p : Params} {grid : Addr} {seed w : Word} {it : Item} (h : it.1 < natOfI32 w)
    (hadm : p.admits (initStoreAddr grid w it) 4 = true) :
    initItem p grid seed w it = .store (initStoreAddr grid w it) (wordBytes (initWord p it.1 it.2 seed)) := by
  rcases initItem_inRange_cases h p seed with ⟨-, he⟩ | ⟨hno, -⟩
  · exact he
  · exact absurd (hadm.symm.trans hno) Bool.noConfusion

/-! ### What the performed item leaves of the state (R203) -/

theorem State.retire_retiredFrom (s : State) (p : Item) : (s.retire p).retiredFrom s p := by
  refine ⟨rfl, fun hnil => ?_, fun hne => ?_, rfl, rfl⟩
  · rw [State.retire_pending] at hnil
    simp [hnil]
  · exact ⟨State.withPending_busy_of_ne hne, State.withPending_active_of_ne hne⟩

/-- R203, R206: an item that does not fault leaves `pending`, and with the last one the command is complete. -/
theorem State.finishItem_retiredFrom {e : ItemEffect} (he : ∀ a, e ≠ .unadmitted a) (s : State) (i : Instr)
    (p : Item) : (s.finishItem i p e).retiredFrom s p := by
  cases e with
  | skip => exact s.usePick.retire_retiredFrom p
  | store a bs => exact s.usePick.retire_retiredFrom p
  | unadmitted a => exact absurd rfl (he a)

theorem State.finishItem_sameOutside (s : State) (i : Instr) (p : Item) (e : ItemEffect) :
    (s.finishItem i p e).sameOutside s :=
  ⟨s.finishItem_desc i p e, s.finishItem_refused i p e, s.finishItem_params i p e, s.finishItem_inputs i p e,
    s.finishItem_reply i p e⟩

/-- Settles O16: the admitted item stores `initWord`, whose chaining is the only case left to read off. -/
theorem initItemWritesItsWord : Obligations.InitItemWritesItsWord := by
  intro s grid seed w ex ey x y hactive hnext hmem hw hx hadm
  rw [← initStoreAddr_eq hw] at hadm ⊢
  have hrange : x < natOfI32 w := by
    have := natOfI32_cast hw
    omega
  have hbound : initStoreAddr grid w (x, y) + 4 ≤ addressSpace := (admits_iff.1 hadm).1
  have heff : itemOf (.init grid seed w ex ey) s.params s.mem (x, y) =
      .store (initStoreAddr grid w (x, y)) (wordBytes (initWord s.params x y seed)) := initItem_admitted hrange hadm
  refine ⟨_, exec_item hactive hnext, ?_, fun a ha => ?_, ?_, State.finishItem_sameOutside _ _ _ _⟩
  · rw [heff, State.finishItem_store_mem, Mem.readWord_writeWord hmem hbound, initWord, seedMix_eq]
    cases s.params.prngChain <;> rfl
  · rw [heff, State.finishItem_store_mem]
    exact Mem.read_writeBytes_outside hmem hbound ha
  · rw [heff]
    exact State.finishItem_retiredFrom (fun _ => ItemEffect.noConfusion) _ _ _

/-- R246: the item in turn that skips leaves memory as it is and retires. -/
theorem exec_skip {s : State} {i : Instr} {p : Item} (hactive : s.active = some i) (hnext : s.nextItem = some p)
    (hskip : itemOf i s.params s.mem p = .skip) :
    ∃ t, exec i s = .next t ∧ t.mem = s.mem ∧ t.retiredFrom s p ∧ t.sameOutside s := by
  refine ⟨_, exec_item hactive hnext, ?_⟩
  rw [hskip]
  exact ⟨rfl, s.finishItem_retiredFrom (fun _ => ItemEffect.noConfusion) i p, s.finishItem_sameOutside i p .skip⟩

/-- Settles O20: in an accepted command the operands are not negative, so the guards compare their exact values. -/
theorem outOfRangeItemSkips : Obligations.OutOfRangeItemSkips := by
  intro s i x y hactive hnext hwf hout
  apply exec_skip hactive hnext
  cases i with
  | init grid seed w ex ey =>
    obtain ⟨hw, -⟩ := wellFormed_init.1 hwf
    have hw' := natOfI32_cast hw
    simp only at hout
    exact initItem_skip (show natOfI32 w ≤ x by omega)
  | step cur nxt g w ex ey =>
    obtain ⟨hg, hw, -⟩ := wellFormed_step hwf
    have hg' := natOfI32_cast hg
    have hw' := natOfI32_cast hw
    simp only at hout
    exact stepItem_skip (show natOfI32 g ≤ y ∨ natOfI32 w ≤ x by omega)
  | render grid out g w xo yo width ey =>
    obtain ⟨hg, -, hxo, hyo, -⟩ := wellFormed_render hwf
    have hg' := natOfI32_cast hg
    have hxo' := natOfI32_cast hxo
    have hyo' := natOfI32_cast hyo
    simp only at hout
    exact renderItem_skip (show natOfI32 g ≤ x + natOfI32 xo ∨ natOfI32 g ≤ y + natOfI32 yo by omega)

/-- R117, R118: an in-range INIT item that does not fault leaves its word in memory. -/
theorem exec_init_readWord {s t : State} {grid : Addr} {seed w ex ey : Word} {it : Item}
    (hactive : s.active = some (.init grid seed w ex ey)) (hnext : s.nextItem = some it) (hmem : s.mem.wf = true)
    (hx : it.1 < natOfI32 w) (h : exec (.init grid seed w ex ey) s = .next t) (hf : t.faulted = none) :
    t.mem.readWord (initStoreAddr grid w it) = initWord s.params it.1 it.2 seed := by
  obtain rfl := Host.Outcome.next.inj ((exec_item hactive hnext).symm.trans h)
  rw [itemOf] at hf ⊢
  rcases initItem_inRange_cases hx s.params seed with ⟨hadm, he⟩ | ⟨-, he⟩
  · rw [he]
    exact Mem.readWord_writeWord hmem (admits_iff.1 hadm).1 _
  · rw [he] at hf
    exact absurd hf (Option.some_ne_none _)

/-- Settles O33: each of the two items stores `initWord`, which sees neither the grid, the width nor the extents. -/
theorem initWordDependsOnCoordinatesAndSeed : Obligations.InitWordDependsOnCoordinatesAndSeed := by
  intro s s' t t' grid grid' seed w w' ex ex' ey ey' x y ha ha' hn hn' hm hm' hx hx' hchain hmix h h' hf hf'
  rw [exec_init_readWord ha hn hm hx h hf, exec_init_readWord ha' hn' hm' hx' h' hf']
  exact initWord_congr hchain hmix x y seed

/-! ### Frames (R57, R203) -/

/-- A step of a command takes no action of the host and answers none. -/
theorem exec_inputs_reply {i : Instr} {s t : State} (h : exec i s = .next t) :
    t.inputs = s.inputs ∧ t.reply = s.reply := by
  rcases exec_cases i s with ⟨-, c, he⟩ | ⟨-, -, he⟩ | ⟨-, -, he⟩ | ⟨p, -, -, he⟩ <;>
    obtain rfl := Host.Outcome.next.inj (he.symm.trans h)
  · exact ⟨rfl, rfl⟩
  · exact ⟨rfl, rfl⟩
  · exact ⟨rfl, rfl⟩
  · exact ⟨s.finishItem_inputs i p _, s.finishItem_reply i p _⟩

/-- A step of the active command is no submission: it is not refused, and the old memory stays (log 5). -/
theorem exec_active_keeps {i : Instr} {s t : State} (h : exec i s = .next t) (ha : s.active = some i) :
    t.refused = s.refused ∧ t.before = s.before := by
  rcases exec_cases i s with ⟨hna, -⟩ | ⟨hnone, -⟩ | ⟨-, -, he⟩ | ⟨p, -, -, he⟩
  · exact absurd ha hna
  · exact absurd (hnone.symm.trans ha) (Option.some_ne_none i).symm
  · obtain rfl := Host.Outcome.next.inj (he.symm.trans h)
    exact ⟨rfl, rfl⟩
  · obtain rfl := Host.Outcome.next.inj (he.symm.trans h)
    exact ⟨s.finishItem_refused i p _, s.finishItem_before i p _⟩

/-- A submission performs no item: it neither faults nor uses a pick, and may take the memory as the old one (log 5). -/
theorem exec_submission_keeps {i : Instr} {s t : State} (h : exec i s = .next t) (ha : s.active ≠ some i) :
    (t.before = s.before ∨ t.before = s.mem) ∧ t.faulted = s.faulted ∧ t.picks = s.picks ∧ t.draws = s.draws := by
  rcases exec_cases i s with ⟨-, c, he⟩ | ⟨-, -, he⟩ | ⟨hactive, -⟩ | ⟨p, hactive, -⟩
  · obtain rfl := Host.Outcome.next.inj (he.symm.trans h)
    exact ⟨.inl rfl, rfl, rfl, rfl⟩
  · obtain rfl := Host.Outcome.next.inj (he.symm.trans h)
    exact ⟨.inr rfl, rfl, rfl, rfl⟩
  · exact absurd hactive ha
  · exact absurd hactive ha

/-- R57, R203: a step of a command changes no byte but those that its item in turn stores. -/
theorem exec_read_unstored {i : Instr} {s t : State} (h : exec i s = .next t) (hmem : s.mem.wf = true) {a : Nat}
    (hout : ∀ p b bs, s.active = some i → s.nextItem = some p → itemOf i s.params s.mem p = .store b bs →
      a < b ∨ b + bs.length ≤ a) : t.mem.read a = s.mem.read a := by
  rcases exec_cases i s with ⟨-, c, he⟩ | ⟨-, -, he⟩ | ⟨-, -, he⟩ | ⟨p, hactive, hnext, he⟩ <;>
    obtain rfl := Host.Outcome.next.inj (he.symm.trans h)
  · rfl
  · rfl
  · rfl
  · cases heff : itemOf i s.params s.mem p with
    | skip => rfl
    | unadmitted b => rfl
    | store b bs => exact Mem.read_writeBytes_outside hmem (itemOf_store_bound heff) (hout p b bs hactive hnext heff)

/-- Settles O22: the frame of every command, and of INIT that an item stores only in range, and only its word. -/
theorem initFrame : Obligations.InitFrame := by
  intro s t grid seed w ex ey hmem h
  obtain ⟨hinputs, hreply⟩ := exec_inputs_reply h
  refine ⟨exec_desc h, exec_params h, hinputs, hreply, exec_active_keeps h,
    fun ha => (exec_submission_keeps h ha).1, fun ha => (exec_submission_keeps h ha).2, ?_, ?_⟩
  · intro it _ hit _ a ha
    refine exec_read_unstored h hmem fun p b bs _ hp he => ?_
    obtain rfl := Option.some.inj (hit.symm.trans hp)
    obtain ⟨-, rfl, rfl⟩ := initItem_eq_store he
    exact ha
  · intro hnone a
    refine exec_read_unstored h hmem fun p b bs hactive hp he => ?_
    obtain ⟨hx, -⟩ := initItem_eq_store he
    rcases hnone with hna | hn | ⟨it, hit, hskip⟩
    · exact absurd hactive hna
    · exact absurd (hn.symm.trans hp) (Option.some_ne_none p).symm
    · obtain rfl := Option.some.inj (hit.symm.trans hp)
      omega

/-! ### A whole command -/

/-- R201: the accepted doorbell of an idle block. -/
theorem exec_accepted {i : Instr} {s : State} (hactive : s.active = none) (hw : i.WellFormed = true) :
    exec i s = .next (s.start i) := by
  rw [exec_idle hactive, wellFormed_iff.1 hw]

/-- R201 to R206: from the accepted doorbell of an idle block with admitted footprints and a silent host, an accepted
command ends after one step for each of its items; every byte that an item stores reads as stored, and every other byte
as before, whatever the order of the items. -/
theorem run_start_memory {s : State} {i : Instr} (hmem : s.mem.wf = true) (hidle : s.idleAndClean)
    (hin : s.inputs = []) (hw : i.WellFormed = true) (hrf : admitsAll s.params i.readFootprint)
    (hwf : admitsAll s.params i.writeFootprint) :
    ∃ t : State, Host.Core.run Sys2Proof.core i.itemsAtStart.length (s.start i) = .next t ∧ t.idleAndClean ∧
      (∀ a, (∀ it ∈ i.itemsAtStart, ∀ b bs, itemOf i s.params s.mem it = .store b bs → a < b ∨ b + bs.length ≤ a) →
        t.mem.read a = s.mem.read a) ∧
      ∀ it ∈ i.itemsAtStart, ∀ b bs, itemOf i s.params s.mem it = .store b bs →
        ∀ k (h : k < bs.length), t.mem.read (b + k) = bs[k] := by
  obtain ⟨hm, -, -, -⟩ := hidle
  cases hn : i.itemsAtStart.length with
  | zero =>
    have hnil := List.length_eq_zero_iff.1 hn
    refine ⟨s.start i, rfl, ⟨hm, by simp [hnil], by simp [hnil], hnil⟩, fun _ _ => rfl, ?_⟩
    simp [hnil]
  | succ n =>
    have hne : i.itemsAtStart ≠ [] := List.ne_nil_of_length_eq_add_one hn
    have hsub := itemsAtStart_sublist i
    have hquiet : (s.start i).quietFor (n + 1) := by
      intro c a rest h
      exact absurd (hin.symm.trans h) (List.cons_ne_nil _ _).symm
    obtain ⟨t, hrun, hend, -, -, -, -, -, hout, hstored⟩ :=
      run_items (i := i) (E := itemOf i s.params s.mem) (m0 := s.mem) (R := fun a => i.readFootprint.holds a = true)
        (L := i.indexSpace)
        (fun it _ m hagree => itemOf_congr hw hagree s.params it)
        (fun it hit => itemOf_ne_unadmitted hw hrf hwf hit s.mem)
        (fun it hit a bs he => ⟨itemOf_store_bound he, fun x h1 h2 =>
          not_readFootprint_of_writeFootprint hw (itemOf_store_inside hit he h1 h2)⟩)
        (fun it hit jt hjt hne a bs b cs he he' => itemOf_stores_apart hit hjt hne he he')
        n (s.start i) hn hsub.subset ((indexSpace_nodup i).sublist hsub) hm hquiet (by simp [hne]) rfl hmem
        fun _ _ => rfl
    exact ⟨t, hrun, hend, hout, hstored⟩

/-- R53: four bytes that are a word's, in memory order, read as the word. -/
theorem Mem.readWord_eq_of_bytes {m : Mem} {a : Nat} {v : Word}
    (h : ∀ k (hk : k < (wordBytes v).length), m.read (a + k) = (wordBytes v)[k]) : m.readWord a = v := by
  have hbyte : ∀ k (hk : k < 4), m.read (a + k) = (wordBytes v)[k] := h
  have h0 := hbyte 0 (by omega)
  rw [Nat.add_zero] at h0
  rw [Mem.readWord, hbyte 3 (by omega), hbyte 2 (by omega), hbyte 1 (by omega), h0]
  exact wordBytes_joined v

/-- R205: INIT reads nothing. -/
theorem admitsAll_init_readFootprint (p : Params) (grid : Addr) (seed w ex ey : Word) :
    admitsAll p (Instr.init grid seed w ex ey).readFootprint := by
  intro a ha
  obtain ⟨hlo, hhi⟩ := ByteRange.holds_iff.1 ha
  exact absurd hlo (Nat.not_le.2 hhi)

/-- Settles O56: the items are the grid of R202, those of them in range store their words, and no other item stores. -/
theorem initCommandFillsItsWords : Obligations.InitCommandFillsItsWords := by
  intro s grid seed w ex ey hmem hidle hin hw hwf
  have ⟨_, _, hactive, _⟩ := hidle
  obtain ⟨hw0, -⟩ := wellFormed_init.1 hw
  have hitems : (Instr.init grid seed w ex ey).itemsAtStart = grid2D ex.toNat ey.toNat := rfl
  obtain ⟨t, hrun, hend, hout, hstored⟩ :=
    run_start_memory hmem hidle hin hw (admitsAll_init_readFootprint s.params grid seed w ex ey) hwf
  rw [hitems, grid2D_length] at hrun
  rw [hitems] at hout hstored
  refine ⟨_, t, exec_accepted hactive hw, hrun, hend, fun x y hx hxe hye => ?_, fun a ha => hout a ?_⟩
  · have hit : (x, y) ∈ grid2D ex.toNat ey.toNat := mem_grid2D.2 ⟨hxe, hye⟩
    rw [← natOfI32_eq_toNat hw0] at hx
    rw [← initStoreAddr_eq hw0]
    rcases initItem_inRange_cases (grid := grid) (it := (x, y)) hx s.params seed with ⟨-, he⟩ | ⟨-, he⟩
    · exact Mem.readWord_eq_of_bytes (hstored (x, y) hit _ _ he)
    · exact absurd he (initItem_ne_unadmitted hwf hit _)
  · rintro ⟨x, y⟩ hit b bs he
    obtain ⟨hx, rfl, rfl⟩ := initItem_eq_store he
    obtain ⟨hxe, hye⟩ := mem_grid2D.1 hit
    rw [natOfI32_eq_toNat hw0] at hx
    rw [initStoreAddr_eq hw0]
    exact ha x y hx hxe hye

end Sys2Proof.Machine
end

section
/-! Proofs of 41_stepper.md: the torus and its neighbour planes (R142 to R144), the ripple counter and the life rule
(R147 to R150, R153), the STEP item and what it leaves unchanged (R140, R145, R151), and the whole STEP command
(R154). -/

namespace Sys2Proof.Machine

/-! ### The torus (R142) -/

theorem ringPrev_eq_mod {n i : Nat} (h : i < n) : ringPrev n i = (i + n - 1) % n := by
  rw [ringPrev]
  split
  · rw [Nat.mod_eq_of_lt] <;> omega
  · rw [show i + n - 1 = i - 1 + n by omega, Nat.add_mod_right, Nat.mod_eq_of_lt (by omega)]

theorem ringNext_eq_mod {n i : Nat} (h : i < n) : ringNext n i = (i + 1) % n := by
  rw [ringNext]
  split
  · rw [show i + 1 = n by omega, Nat.mod_self]
  · rw [Nat.mod_eq_of_lt (by omega)]

theorem ringPrev_ringNext (n i : Nat) : ringPrev n (ringNext n i) = i := by
  rw [ringNext, ringPrev]
  split <;> split <;> omega

theorem ringNext_ringPrev {n i : Nat} (h : i < n) : ringNext n (ringPrev n i) = i := by
  rw [ringNext, ringPrev]
  split <;> split <;> omega

/-- Settles O30: away from the edge the modulus does nothing, and at the edge it wraps as the model does. -/
theorem ringNeighboursWrap : Obligations.RingNeighboursWrap := fun _ _ h =>
  ⟨ringPrev_eq_mod h, ringNext_eq_mod h, ringPrev_ringNext _ _, ringNext_ringPrev h⟩

/-! ### The neighbour planes, lane by lane (R143, R144) -/

theorem westPlane_getLsbD (c l : Word) {k : Nat} (hk : k < 32) :
    (westPlane c l).getLsbD k = if k = 0 then l.getLsbD 31 else c.getLsbD (k - 1) := by
  rw [westPlane, BitVec.getLsbD_or, BitVec.getLsbD_shiftLeft, BitVec.getLsbD_ushiftRight]
  by_cases h0 : k = 0
  · simp [h0]
  · have hl : l.getLsbD (31 + k) = false := BitVec.getLsbD_of_ge l _ (by omega)
    simp [h0, hk, hl]

theorem eastPlane_getLsbD (c r : Word) {k : Nat} (hk : k < 32) :
    (eastPlane c r).getLsbD k = if k = 31 then r.getLsbD 0 else c.getLsbD (k + 1) := by
  rw [eastPlane, BitVec.getLsbD_or, BitVec.getLsbD_ushiftRight, BitVec.getLsbD_shiftLeft]
  by_cases h31 : k = 31
  · simp [h31]
  · have hr : k < 31 := by omega
    simp [h31, hr, Nat.add_comm 1 k]

/-- Settles O29: a shift by one moves each lane to its neighbour, and a shift by 31 brings in the one borrowed bit. -/
theorem planesBorrowAcrossWords : Obligations.PlanesBorrowAcrossWords := fun c o _ hk =>
  ⟨westPlane_getLsbD c o hk, eastPlane_getLsbD c o hk⟩

/-! ### The ripple counter (R147 to R149) -/

/-- Settles O25: `fullAdd` is R147's definition, with its two carries named. -/
theorem fullAdderStep : Obligations.FullAdderStep := fun _ _ => rfl

/-- R149: the number that lane `k` of the accumulator holds, its three bits at their place values. -/
def Acc.lane (r : Acc) (k : Nat) : Nat :=
  4 * (r.c.getLsbD k).toNat + 2 * (r.b.getLsbD k).toNat + (r.a.getLsbD k).toNat

/-- R149: adding a plane adds its bit to every lane, modulo 8. -/
theorem Acc.lane_fullAdd (r : Acc) (p : Word) (k : Nat) :
    (fullAdd r p).lane k = (r.lane k + (p.getLsbD k).toNat) % 8 := by
  simp only [Acc.lane, fullAdd, BitVec.getLsbD_xor, BitVec.getLsbD_and]
  cases r.a.getLsbD k <;> cases r.b.getLsbD k <;> cases r.c.getLsbD k <;> cases p.getLsbD k <;> rfl

/-- R148, R149: each lane counts the planes added that have it set, modulo 8. -/
theorem Acc.lane_foldl_fullAdd (ps : List Word) (k : Nat) {r : Acc} (hr : r.lane k < 8) :
    (ps.foldl fullAdd r).lane k = (r.lane k + (ps.filter fun p => p.getLsbD k).length) % 8 := by
  induction ps generalizing r with
  | nil => exact (Nat.mod_eq_of_lt hr).symm
  | cons p ps ih =>
    have hadd := Acc.lane_fullAdd r p k
    rw [List.foldl_cons, ih (by omega), hadd, Nat.mod_add_mod, Nat.add_assoc]
    cases hp : p.getLsbD k <;> simp [hp, Nat.add_comm 1]

theorem Acc.lane_ripple (ps : List Word) (k : Nat) :
    (ripple ps).lane k = (ps.filter fun p => p.getLsbD k).length % 8 := by
  have hzero : (⟨0#32, 0#32, 0#32⟩ : Acc).lane k = 0 := by simp [Acc.lane]
  rw [ripple, Acc.lane_foldl_fullAdd ps k (by omega), hzero, Nat.zero_add]

/-- A number below 8 is spelled by three bits in one way only. -/
theorem bits_eq_of_value_eq : ∀ {a b c a' b' c' : Bool},
    4 * c.toNat + 2 * b.toNat + a.toNat = 4 * c'.toNat + 2 * b'.toNat + a'.toNat → a = a' ∧ b = b' ∧ c = c' := by
  decide

/-- An accumulator is the numbers in its lanes. -/
theorem Acc.ext_lane {r r' : Acc} (h : ∀ k, k < 32 → r.lane k = r'.lane k) : r = r' := by
  obtain ⟨a, b, c⟩ := r
  obtain ⟨a', b', c'⟩ := r'
  have hbits := fun k hk => bits_eq_of_value_eq (h k hk)
  obtain rfl : a = a' := BitVec.eq_of_getLsbD_eq fun k hk => have ⟨ha, _, _⟩ := hbits k hk; ha
  obtain rfl : b = b' := BitVec.eq_of_getLsbD_eq fun k hk => have ⟨_, hb, _⟩ := hbits k hk; hb
  obtain rfl : c = c' := BitVec.eq_of_getLsbD_eq fun k hk => have ⟨_, _, hc⟩ := hbits k hk; hc
  rfl

/-- Settles O26: three planes are three binary digits, and each plane added is one more (`Acc.lane_ripple`). -/
theorem rippleCountsModuloEight : Obligations.RippleCountsModuloEight := fun ps k _ _ => Acc.lane_ripple ps k

/-- Settles O28: the lanes hold counts, which do not depend on the order. -/
theorem planeOrderUnobservable : Obligations.PlaneOrderUnobservable := by
  intro ps qs hperm
  refine Acc.ext_lane fun k _ => ?_
  rw [Acc.lane_ripple, Acc.lane_ripple, (hperm.filter _).length_eq]

/-! ### The life rule (R150) -/

/-- R150: `three` and `two` pick the lanes that hold those numbers. -/
theorem lifeRule_getLsbD (r : Acc) (m : Word) {k : Nat} (hk : k < 32) :
    (lifeRule r m).getLsbD k = true ↔ r.lane k = 3 ∨ (r.lane k = 2 ∧ m.getLsbD k = true) := by
  simp only [lifeRule, Acc.lane, BitVec.getLsbD_or, BitVec.getLsbD_and, BitVec.getLsbD_not, hk, decide_true,
    Bool.true_and]
  cases r.a.getLsbD k <;> cases r.b.getLsbD k <;> cases r.c.getLsbD k <;> simp

/-- Settles O27: at most eight planes are counted, and modulo 8 none of the numbers up to 8 is taken for 2 or 3. -/
theorem lifeRuleFollowsTheCount : Obligations.LifeRuleFollowsTheCount := by
  intro ps m k hlen hk
  have hcount : (ps.filter fun p => p.getLsbD k).length ≤ 8 := hlen ▸ List.length_filter_le _ ps
  rw [lifeRule_getLsbD _ _ hk, Acc.lane_ripple]
  have h3 : (ps.filter fun p => p.getLsbD k).length % 8 = 3 ↔ (ps.filter fun p => p.getLsbD k).length = 3 := by omega
  have h2 : (ps.filter fun p => p.getLsbD k).length % 8 = 2 ↔ (ps.filter fun p => p.getLsbD k).length = 2 := by omega
  rw [h3, h2]

/-! ### The item's word is Life, cell by cell (R80, R154) -/

/-- R142, R143: the column to the west lies in the same word, or is the last of the word to the left. -/
theorem ringPrev_column {W x k : Nat} (hx : x < W) :
    ringPrev (32 * W) (32 * x + k) = if k = 0 then 32 * ringPrev W x + 31 else 32 * x + (k - 1) := by
  rw [ringPrev, ringPrev]
  by_cases hk : k = 0
  · rw [if_pos hk]
    split <;> split <;> omega
  · rw [if_neg hk, if_neg (by omega)]
    omega

/-- R142, R144: the column to the east lies in the same word, or is the first of the word to the right. -/
theorem ringNext_column {W x k : Nat} (hx : x < W) (hk : k < 32) :
    ringNext (32 * W) (32 * x + k) = if k = 31 then 32 * ringNext W x + 0 else 32 * x + (k + 1) := by
  rw [ringNext, ringNext]
  by_cases h31 : k = 31
  · rw [if_pos h31]
    split <;> split <;> omega
  · rw [if_neg h31, if_neg (by omega)]
    omega

section
variable (m : Mem) (base : Nat) {W x k : Nat}

/-- R80: the cells of a word are its bits. -/
theorem cellAt_word (r : Nat) (hk : k < 32) :
    cellAt m base W r (32 * x + k) = (m.readWord (gridWordAddr base W r x)).getLsbD k := by
  rw [cellAt, show (32 * x + k) / 32 = x by omega, show (32 * x + k) % 32 = k by omega]

/-- R143, R154: the west plane's lane is the cell one column to the west on the torus. -/
theorem westPlane_getLsbD_eq_cellAt (r : Nat) (hx : x < W) (hk : k < 32) :
    (westPlane (m.readWord (gridWordAddr base W r x)) (m.readWord (gridWordAddr base W r (ringPrev W x)))).getLsbD k =
      cellAt m base W r (ringPrev (32 * W) (32 * x + k)) := by
  rw [westPlane_getLsbD _ _ hk, ringPrev_column hx]
  split
  · exact (cellAt_word m base r (by decide)).symm
  · exact (cellAt_word m base r (by omega)).symm

/-- R144, R154: the east plane's lane is the cell one column to the east on the torus. -/
theorem eastPlane_getLsbD_eq_cellAt (r : Nat) (hx : x < W) (hk : k < 32) :
    (eastPlane (m.readWord (gridWordAddr base W r x)) (m.readWord (gridWordAddr base W r (ringNext W x)))).getLsbD k =
      cellAt m base W r (ringNext (32 * W) (32 * x + k)) := by
  rw [eastPlane_getLsbD _ _ hk, ringNext_column hx hk]
  split
  · exact (cellAt_word m base r (by decide)).symm
  · exact (cellAt_word m base r (by omega)).symm

/-- R146, R154: in each lane the eight planes are the eight cells around its cell, in the order of the planes. -/
theorem planes_lane_eq_cells {y : Nat} (hx : x < W) (hy : y < 32 * W) (hk : k < 32) :
    (planes (readHood m base (32 * W) W x y)).map (fun p => p.getLsbD k) =
      (torusNeighbours (32 * W) y (32 * x + k)).map fun c => cellAt m base W c.1 c.2 := by
  have hq : 32 * x + k < 32 * W := by omega
  simp only [planes, readHood, torusNeighbours, List.map_cons, List.map_nil, ← ringPrev_eq_mod hy,
    ← ringNext_eq_mod hy, ← ringPrev_eq_mod hq, ← ringNext_eq_mod hq, westPlane_getLsbD_eq_cellAt m base _ hx hk,
    eastPlane_getLsbD_eq_cellAt m base _ hx hk, cellAt_word m base _ hk]

/-- R149, R154: the planes with a lane set are as many as the cells alive around its cell. -/
theorem planes_count_eq_aliveAround {y : Nat} (hx : x < W) (hy : y < 32 * W) (hk : k < 32) :
    ((planes (readHood m base (32 * W) W x y)).filter fun p => p.getLsbD k).length =
      aliveAround m base (32 * W) W y (32 * x + k) := by
  have h := congrArg (List.countP id) (planes_lane_eq_cells m base hx hy hk)
  rw [List.countP_map, List.countP_map, List.countP_eq_length_filter, List.countP_eq_length_filter] at h
  exact h

/-- R154: the word an item computes is the next generation of its 32 cells. -/
theorem nextWord_getLsbD_eq_aliveNext {y : Nat} (hx : x < W) (hy : y < 32 * W) (hk : k < 32) :
    (nextWord (readHood m base (32 * W) W x y)).getLsbD k = aliveNext m base (32 * W) W y (32 * x + k) := by
  have hcentre : (readHood m base (32 * W) W x y).m.getLsbD k = cellAt m base W y (32 * x + k) :=
    (cellAt_word m base y hk).symm
  rw [Bool.eq_iff_iff, nextWord, lifeRuleFollowsTheCount _ _ k rfl hk, planes_count_eq_aliveAround m base hx hy hk,
    hcentre, aliveNext]
  simp

end

/-! ### The STEP item (R140, R151) -/

theorem stepStoreAddr_eq {nxt : Addr} {w : Word} (h : 0 ≤ w.toInt) (x y : Nat) :
    stepStoreAddr nxt w (x, y) = nxt.toNat + 4 * (y * w.toNat + x) := by
  rw [stepStoreAddr, natOfI32_eq_toNat h]
  rfl

/-- R140: an in-range STEP item whose ten accesses are admitted stores the next generation of its word. -/
theorem stepItem_admitted {p : Params} {m : Mem} {cur nxt : Addr} {g w : Word} {it : Item} (hx : it.1 < natOfI32 w)
    (hy : it.2 < natOfI32 g)
    (hreads : ∀ a ∈ hoodAddrs cur.toNat (natOfI32 g) (natOfI32 w) it.1 it.2, p.admits a 4 = true)
    (hwrite : p.admits (stepStoreAddr nxt w it) 4 = true) :
    stepItem p m cur nxt g w it = .store (stepStoreAddr nxt w it)
      (wordBytes (nextWord (readHood m cur.toNat (natOfI32 g) (natOfI32 w) it.1 it.2))) := by
  rw [stepItem_inRange hx hy, guardedStore_admitted]
  simpa only [List.forall_mem_append, List.forall_mem_map, List.forall_mem_singleton] using ⟨hreads, hwrite⟩

/-- Settles O17: the admitted item stores `nextWord`, which is the life rule of the ripple of its planes. -/
theorem stepItemWritesItsWord : Obligations.StepItemWritesItsWord := by
  intro s cur nxt g w ex ey x y hactive hnext hmem hg hw hx hy hreads hwrite
  have hx' : x < natOfI32 w := by
    have := natOfI32_cast hw
    omega
  have hy' : y < natOfI32 g := by
    have := natOfI32_cast hg
    omega
  rw [← natOfI32_eq_toNat hg, ← natOfI32_eq_toNat hw] at hreads
  rw [← stepStoreAddr_eq hw] at hwrite ⊢
  have hbound : stepStoreAddr nxt w (x, y) + 4 ≤ addressSpace := (admits_iff.1 hwrite).1
  have heff : itemOf (.step cur nxt g w ex ey) s.params s.mem (x, y) = _ :=
    stepItem_admitted (m := s.mem) hx' hy' hreads hwrite
  refine ⟨_, exec_item hactive hnext, ?_, fun a ha => ?_, ?_, State.finishItem_sameOutside _ _ _ _⟩
  · rw [heff, State.finishItem_store_mem, Mem.readWord_writeWord hmem hbound, natOfI32_eq_toNat hg,
      natOfI32_eq_toNat hw]
    rfl
  · rw [heff, State.finishItem_store_mem]
    exact Mem.read_writeBytes_outside hmem hbound ha
  · rw [heff]
    exact State.finishItem_retiredFrom (fun _ => ItemEffect.noConfusion) _ _ _

/-- Settles O18: the word that the item leaves in memory (O17) is `nextWord`, whose lanes are Life. -/
theorem stepItemIsLifeCellByCell : Obligations.StepItemIsLifeCellByCell := by
  intro s cur nxt g w ex ey x y hactive hnext hmem hw hgw hx hy hreads hwrite
  have hg : 0 ≤ g.toInt := by omega
  have hw' := toInt_eq_toNat hw
  have hg' := toInt_eq_toNat hg
  obtain ⟨t, hexec, hword, -⟩ :=
    stepItemWritesItsWord s cur nxt g w ex ey x y hactive hnext hmem hg hw hx hy hreads hwrite
  refine ⟨t, hexec, fun k hk => ?_⟩
  rw [cellAt_word t.mem nxt.toNat y hk]
  rw [show g.toNat = 32 * w.toNat by omega] at hword ⊢
  rw [← nextWord_getLsbD_eq_aliveNext s.mem cur.toNat (by omega) (by omega) hk]
  exact congrArg (fun v : Word => v.getLsbD k) hword

/-- Settles O23: the frame of every command, and of STEP that an item stores only in range, and only its word. -/
theorem stepFrame : Obligations.StepFrame := by
  intro s t cur nxt g w ex ey hmem h
  obtain ⟨hinputs, hreply⟩ := exec_inputs_reply h
  refine ⟨exec_desc h, exec_params h, hinputs, hreply, exec_active_keeps h,
    fun ha => (exec_submission_keeps h ha).1, fun ha => (exec_submission_keeps h ha).2, ?_, ?_⟩
  · intro it _ hit _ _ a ha
    refine exec_read_unstored h hmem fun p b bs _ hp he => ?_
    obtain rfl := Option.some.inj (hit.symm.trans hp)
    obtain ⟨-, -, rfl, rfl⟩ := stepItem_eq_store he
    exact ha
  · intro hnone a
    refine exec_read_unstored h hmem fun p b bs hactive hp he => ?_
    obtain ⟨hx, hy, -⟩ := stepItem_eq_store he
    rcases hnone with hna | hn | ⟨it, hit, hskip⟩
    · exact absurd hactive hna
    · exact absurd (hn.symm.trans hp) (Option.some_ne_none p).symm
    · obtain rfl := Option.some.inj (hit.symm.trans hp)
      omega

/-! ### The STEP command (R154) -/

/-- R93, R202: the items of an accepted STEP: its index space, or none on the grid without a cell. -/
theorem itemsAtStart_step {cur nxt : Addr} {g w ex ey : Word} (hw : (Instr.step cur nxt g w ex ey).WellFormed = true) :
    (Instr.step cur nxt g w ex ey).itemsAtStart = if g.toNat = 0 then [] else grid2D ex.toNat ey.toNat := by
  obtain ⟨hg0, hw0, hgw, -⟩ := wellFormed_step hw
  have hempty : (Instr.step cur nxt g w ex ey).gridEmpty = decide (g.toNat = 0) := by
    simp only [Instr.gridEmpty, Instr.gridShape, natOfI32_eq_toNat hg0, natOfI32_eq_toNat hw0, ← Bool.decide_and]
    exact decide_eq_decide.2 (by omega)
  rw [Instr.itemsAtStart, hempty]
  simp only [decide_eq_true_eq]
  rfl

/-- R205, R244: an in-range item of a STEP with admitted footprints stores. -/
theorem stepItem_of_admitted_footprints {p : Params} {cur nxt : Addr} {g w ex ey : Word}
    (hrf : admitsAll p (Instr.step cur nxt g w ex ey).readFootprint)
    (hwf : admitsAll p (Instr.step cur nxt g w ex ey).writeFootprint) (m : Mem) {it : Item} (hx : it.1 < natOfI32 w)
    (hy : it.2 < natOfI32 g) :
    stepItem p m cur nxt g w it = .store (stepStoreAddr nxt w it)
      (wordBytes (nextWord (readHood m cur.toNat (natOfI32 g) (natOfI32 w) it.1 it.2))) := by
  have hitem := stepItem_inRange (p := p) (m := m) (cur := cur) (nxt := nxt) hx hy
  rcases guardedStore_cases p _ _ _ with ⟨-, he⟩ | ⟨b, n, -, -, he⟩
  · exact hitem.trans he
  · exact absurd (hitem.trans he) (stepItem_ne_unadmitted hrf hwf m it b)

/-- Settles O55: every word of the grid has its item, which stores Life of the memory at the start, and no item stores
outside `next`. -/
theorem stepCommandComputesNextGeneration : Obligations.StepCommandComputesNextGeneration := by
  intro s cur nxt g w ex ey hmem hidle hin hw hex hey hrf hwf
  have ⟨_, _, hactive, _⟩ := hidle
  obtain ⟨hg0, hw0, hgw, -⟩ := wellFormed_step hw
  obtain ⟨t, hrun, hend, hout, hstored⟩ := run_start_memory hmem hidle hin hw hrf hwf
  refine ⟨_, t, exec_accepted hactive hw, ?_, hend, fun r q hr hq => ?_,
    fun a ha => hout a fun it hit b bs he => ?_⟩
  · rw [itemsAtStart_step hw, apply_ite List.length, grid2D_length] at hrun
    exact hrun
  · have hx : q / 32 < w.toNat := by omega
    have hit : (q / 32, r) ∈ (Instr.step cur nxt g w ex ey).itemsAtStart := by
      rw [itemsAtStart_step hw, if_neg (by omega)]
      exact mem_grid2D.2 ⟨by omega, by omega⟩
    have heff := stepItem_of_admitted_footprints hrf hwf s.mem (it := (q / 32, r))
      (by rwa [natOfI32_eq_toNat hw0]) (by rwa [natOfI32_eq_toNat hg0])
    have hword := Mem.readWord_eq_of_bytes (hstored _ hit _ _ heff)
    rw [stepStoreAddr, natOfI32_eq_toNat hw0, natOfI32_eq_toNat hg0, hgw] at hword
    have hk : q % 32 < 32 := Nat.mod_lt q (by decide)
    have hlife := nextWord_getLsbD_eq_aliveNext s.mem cur.toNat hx (hgw ▸ hr) hk
    rw [Nat.div_add_mod, ← hword, ← hgw] at hlife
    exact hlife
  · by_contra hcon
    have hinside := itemOf_store_inside ((itemsAtStart_sublist _).subset hit) he (x := a) (by omega) (by omega)
    exact absurd (ha.symm.trans hinside) Bool.noConfusion

end Sys2Proof.Machine
end

section
/-! Proofs of 42_render.md: the RENDER item and what it leaves unchanged (R180 to R185), and the whole RENDER command
(R186). -/

namespace Sys2Proof.Machine

/-! ### The RENDER item (R180) -/

theorem renderStoreAddr_eq {out : Addr} {width : Word} (h : 0 ≤ width.toInt) (x y : Nat) :
    renderStoreAddr out width (x, y) = out.toNat + y * width.toNat + x := by
  rw [renderStoreAddr, natOfI32_eq_toNat h]
  rfl

/-- R54, R202: two items of one window store at different addresses. -/
theorem renderStoreAddr_inj {out : Addr} {width : Word} {it jt : Item} (hit : it.1 < natOfI32 width)
    (hjt : jt.1 < natOfI32 width) (h : renderStoreAddr out width it = renderStoreAddr out width jt) : it = jt := by
  simp only [renderStoreAddr, pixelAddr] at h
  obtain ⟨hx, hy⟩ := rowMajor_inj hit hjt (show it.2 * natOfI32 width + it.1 = jt.2 * natOfI32 width + jt.1 by omega)
  exact Prod.ext hx hy

/-- R80, R184: the bit that an item takes from the owning word is its cell. -/
theorem pixelBit_readWord_eq_cellAt (m : Mem) (grid : Addr) (w : Word) (gx gy : Nat) :
    pixelBit (m.readWord (renderReadAddr grid w gx gy)) gx = cellAt m grid.toNat (natOfI32 w) gy gx := pixelBit_eq _ gx

/-- R182, R184, R185: an item inside the grid that does not fault stores its cell's byte at its pixel. -/
theorem renderItem_stores_cell {p : Params} {m : Mem} {grid out : Addr} {g w xo yo width : Word} {x y : Nat}
    (hx : x + natOfI32 xo < natOfI32 g) (hy : y + natOfI32 yo < natOfI32 g)
    (hok : ∀ a, renderItem p m grid out g w xo yo width (x, y) ≠ .unadmitted a) :
    renderItem p m grid out g w xo yo width (x, y) =
      .store (renderStoreAddr out width (x, y))
        [pixelByte (cellAt m grid.toNat (natOfI32 w) (y + natOfI32 yo) (x + natOfI32 xo))] := by
  have hitem := renderItem_inRange (p := p) (m := m) (grid := grid) (out := out) (w := w) (width := width)
    (it := (x, y)) hx hy
  rcases guardedStore_cases p _ _ _ with ⟨-, he⟩ | ⟨b, n, -, -, he⟩
  · rw [hitem, he, pixelBit_readWord_eq_cellAt]
  · exact absurd (hitem.trans he) (hok b)

/-- Settles O19: the admitted item stores one byte, which is read off its cell. -/
theorem renderItemWritesItsPixel : Obligations.RenderItemWritesItsPixel := by
  intro s grid out g w xo yo width ey x y hactive hnext hmem hg hw hxo hyo hwd hx hy hread hwrite
  have hx' : x + natOfI32 xo < natOfI32 g := by
    rw [← natOfI32_cast hg, ← natOfI32_cast hxo] at hx
    omega
  have hy' : y + natOfI32 yo < natOfI32 g := by
    rw [← natOfI32_cast hg, ← natOfI32_cast hyo] at hy
    omega
  rw [← natOfI32_eq_toNat hw, ← natOfI32_eq_toNat hxo, ← natOfI32_eq_toNat hyo] at hread ⊢
  rw [← renderStoreAddr_eq hwd] at hwrite ⊢
  have hok : ∀ a, renderItem s.params s.mem grid out g w xo yo width (x, y) ≠ .unadmitted a := by
    rw [renderItem_inRange hx' hy']
    refine guardedStore_ne_unadmitted ?_ _ _
    simpa only [List.forall_mem_cons] using ⟨hread, hwrite, nofun⟩
  have heff : itemOf (.render grid out g w xo yo width ey) s.params s.mem (x, y) = _ :=
    renderItem_stores_cell hx' hy' hok
  have hpixel := Mem.read_write hmem (renderStoreAddr out width (x, y))
    (pixelByte (cellAt s.mem grid.toNat (natOfI32 w) (y + natOfI32 yo) (x + natOfI32 xo)))
  refine ⟨_, exec_item hactive hnext, ?_, fun a ha => ?_, ?_, State.finishItem_sameOutside _ _ _ _⟩
  · rw [heff]
    exact (hpixel _).trans (if_pos rfl)
  · rw [heff]
    exact (hpixel a).trans (if_neg ha)
  · rw [heff]
    exact State.finishItem_retiredFrom (fun _ => ItemEffect.noConfusion) _ _ _

/-! ### What a RENDER leaves unchanged (R57, R203) -/

/-- R203: a step that performs no item, or one that skips, leaves every byte. -/
theorem exec_read_of_no_store {i : Instr} {s t : State} (h : exec i s = .next t) (hmem : s.mem.wf = true)
    (hnone : s.active ≠ some i ∨ s.nextItem = none ∨
      ∃ it, s.nextItem = some it ∧ itemOf i s.params s.mem it = .skip) (a : Nat) :
    t.mem.read a = s.mem.read a := by
  refine exec_read_unstored h hmem fun p b bs hactive hp he => ?_
  rcases hnone with hna | hn | ⟨it, hit, hskip⟩
  · exact absurd hactive hna
  · exact absurd (hn.symm.trans hp) (Option.some_ne_none p).symm
  · obtain rfl := Option.some.inj (hit.symm.trans hp)
    exact ItemEffect.noConfusion (hskip.symm.trans he)

/-- Settles O24: the frame of every command, and of RENDER that an item inside the grid stores at its pixel only, and
one outside skips. -/
theorem renderFrame : Obligations.RenderFrame := by
  intro s t grid out g w xo yo width ey hmem h
  obtain ⟨hinputs, hreply⟩ := exec_inputs_reply h
  refine ⟨exec_desc h, exec_params h, hinputs, hreply, exec_active_keeps h,
    fun ha => (exec_submission_keeps h ha).1, fun ha => (exec_submission_keeps h ha).2, ?_, fun hnone => ?_⟩
  · intro it _ hit _ _ a ha
    refine exec_read_unstored h hmem fun p b bs _ hp he => ?_
    obtain rfl := Option.some.inj (hit.symm.trans hp)
    obtain ⟨-, -, rfl, rfl⟩ := renderItem_eq_store he
    rw [List.length_singleton]
    omega
  · exact exec_read_of_no_store h hmem
      (hnone.imp_right (Or.imp_right fun ⟨it, hit, hout⟩ => ⟨it, hit, renderItem_skip hout⟩))

/-! ### The RENDER command (R186) -/

/-- R93, R202: the items of an accepted RENDER: its window, or none on the grid without a cell. -/
theorem itemsAtStart_render {grid out : Addr} {g w xo yo width ey : Word}
    (hw : (Instr.render grid out g w xo yo width ey).WellFormed = true) :
    (Instr.render grid out g w xo yo width ey).itemsAtStart =
      if natOfI32 g = 0 then [] else grid2D (natOfI32 width) ey.toNat := by
  obtain ⟨hg0, hw0, -, -, -, hgw, -⟩ := wellFormed_render hw
  rw [← natOfI32_eq_toNat hg0, ← natOfI32_eq_toNat hw0] at hgw
  have hempty : natOfI32 g = 0 ∧ natOfI32 w = 0 ↔ natOfI32 g = 0 := by omega
  simp only [Instr.itemsAtStart, Instr.gridEmpty, Instr.gridShape, Bool.and_eq_true, decide_eq_true_eq, hempty,
    Instr.indexSpace]

/-- R183: the pixel of an item outside the grid is stored by no item of the window. -/
theorem renderItem_spares_pixel_outside {p : Params} {m : Mem} {grid out : Addr} {g w xo yo width : Word} {it jt : Item}
    {b : Nat} {bs : List Byte} (hit : it.1 < natOfI32 width)
    (hgrid : ¬(it.1 + natOfI32 xo < natOfI32 g ∧ it.2 + natOfI32 yo < natOfI32 g)) (hjt : jt.1 < natOfI32 width)
    (he : renderItem p m grid out g w xo yo width jt = .store b bs) :
    renderStoreAddr out width it < b ∨ b + bs.length ≤ renderStoreAddr out width it := by
  obtain ⟨hgx, hgy, rfl, rfl⟩ := renderItem_eq_store he
  have hne : renderStoreAddr out width it ≠ renderStoreAddr out width jt := by
    intro heq
    obtain rfl := renderStoreAddr_inj hit hjt heq
    exact hgrid ⟨hgx, hgy⟩
  exact Nat.lt_or_gt_of_ne hne

/-- Settles O57: every pixel of the window has its item, which stores the pixel inside the grid and skips outside, no
other item stores there, and none stores outside the window. -/
theorem renderCommandUnpacksItsWindow : Obligations.RenderCommandUnpacksItsWindow := by
  intro s grid out g w xo yo width ey hmem hidle hin hw hrf hwf
  have ⟨_, _, hactive, _⟩ := hidle
  obtain ⟨hg0, hw0, hxo0, hyo0, hwd0, -⟩ := wellFormed_render hw
  obtain ⟨t, hrun, hend, hout, hstored⟩ := run_start_memory hmem hidle hin hw hrf hwf
  rw [itemsAtStart_render hw, apply_ite List.length, grid2D_length] at hrun
  simp only [← natOfI32_eq_toNat hg0, ← natOfI32_eq_toNat hw0, ← natOfI32_eq_toNat hxo0, ← natOfI32_eq_toNat hyo0,
    ← natOfI32_eq_toNat hwd0]
  refine ⟨_, t, exec_accepted hactive hw, hrun, hend, fun x y hx hy => ?_, fun a ha => hout a fun it hit b bs he => ?_⟩
  · split
    next hgrid =>
      obtain ⟨hgx, hgy⟩ := hgrid
      have hspace : (x, y) ∈ (Instr.render grid out g w xo yo width ey).indexSpace := mem_grid2D.2 ⟨hx, hy⟩
      have hit : (x, y) ∈ (Instr.render grid out g w xo yo width ey).itemsAtStart := by
        rw [itemsAtStart_render hw, if_neg (by omega)]
        exact hspace
      exact hstored _ hit _ _
        (renderItem_stores_cell hgx hgy (renderItem_ne_unadmitted hw hrf hwf hspace s.mem)) 0 Nat.one_pos
    next hgrid =>
      exact hout _ fun jt hjt b bs he =>
        renderItem_spares_pixel_outside (it := (x, y)) hx hgrid
          (mem_grid2D.1 ((itemsAtStart_sublist _).subset hjt)).1 he
  · by_contra hcon
    have hinside := itemOf_store_inside ((itemsAtStart_sublist _).subset hit) he (x := a) (by omega) (by omega)
    have hbounds := ByteRange.holds_iff.1 hinside
    simp only [Instr.writeFootprint] at hbounds
    omega

end Sys2Proof.Machine
end

section
/-! Proofs of 43_dispatch_control.md: what an item of the active command reads and writes (R205), a command's life (R201
to R206), the order of its items (R209), and the host's accesses (R215 to R217). -/

namespace Sys2Proof.Machine

/-! ### The item in turn, against the footprints (R205) -/

/-- The item in turn of a running command is of its index space. -/
theorem State.Inv.nextItem_mem_indexSpace {s : State} (hs : s.Inv) {i : Instr} {p : Item} (hactive : s.active = some i)
    (hnext : s.nextItem = some p) : p ∈ i.indexSpace :=
  (hs.running i hactive).2.subset (State.nextItem_mem hnext)

/-- R203: a byte that a step of a command changes is one that the item in turn stores. -/
theorem exec_read_ne_stored {i : Instr} {s t : State} (hmem : s.mem.wf = true) (h : exec i s = .next t) {a : Nat}
    (hne : t.mem.read a ≠ s.mem.read a) :
    ∃ p b bs, s.active = some i ∧ s.nextItem = some p ∧ itemOf i s.params s.mem p = .store b bs ∧ b ≤ a ∧
      a < b + bs.length := by
  by_contra hcon
  refine hne (exec_read_unstored h hmem fun p b bs hactive hnext he => ?_)
  by_contra hin
  exact hcon ⟨p, b, bs, hactive, hnext, he, by omega, by omega⟩

/-- R205: a step of a command changes a byte only as the active one, and inside its write footprint. -/
theorem exec_read_ne {i : Instr} {s t : State} (hs : s.Inv) (h : exec i s = .next t) {a : Nat}
    (hne : t.mem.read a ≠ s.mem.read a) : s.active = some i ∧ i.writeFootprint.holds a = true := by
  obtain ⟨p, b, bs, hactive, hnext, he, hlo, hhi⟩ := exec_read_ne_stored hs.memory h hne
  exact ⟨hactive, itemOf_store_inside (hs.nextItem_mem_indexSpace hactive hnext) he hlo hhi⟩

/-- R241: a step of the active command leaves its read footprint as it was. -/
theorem exec_read_readFootprint {i : Instr} {s t : State} (hs : s.Inv) (hactive : s.active = some i)
    (h : exec i s = .next t) {a : Nat} (ha : i.readFootprint.holds a = true) : t.mem.read a = s.mem.read a := by
  by_contra hne
  exact not_readFootprint_of_writeFootprint (hs.accepted i hactive) (exec_read_ne hs h hne).2 ha

/-- Settles O41: both commands' items are `itemOf` of the command, which reads inside the read footprint only. -/
theorem itemReadsOnlyReadFootprint : Obligations.ItemReadsOnlyReadFootprint :=
  ⟨fun p _ _ _ _ _ _ _ _ it hw h => itemOf_congr hw h p it,
    fun p _ _ _ _ _ _ _ _ _ _ it hw h => itemOf_congr hw h p it⟩

/-! ### The order of the items (R204, R209) -/

/-- A silent host is quiet for as long as one asks. -/
theorem State.quietFor_of_silent {s : State} (h : s.inputs = []) (n : Nat) : s.quietFor n :=
  fun _ _ _ hcons => absurd (h.symm.trans hcons) (List.cons_ne_nil _ _).symm

/-- Settles O53: the induction over the work items, with the host silent. -/
theorem commandRunsToItsEnd : Obligations.CommandRunsToItsEnd := by
  intro s i hs hm hin hactive hrf hwf
  obtain ⟨t, hrun, hidle, -⟩ := run_active_to_end hs hm hactive (s.quietFor_of_silent hin _) hrf hwf
  exact ⟨t, hrun, hidle⟩

/-- R33: a run that ends unmarked began unmarked, a marked state having no step. -/
theorem marked_eq_false_of_run {k : Nat} {s t : State} (h : Host.Core.run Sys2Proof.core k s = .next t)
    (ht : t.marked = false) : s.marked = false := by
  cases k with
  | zero => exact Host.Outcome.next.inj h ▸ ht
  | succ k =>
    obtain ⟨u, hstep, -⟩ := run_succ_eq_next h
    exact (step_next_cases hstep).1

/-- R244: an item that leaves no mark was admitted. -/
theorem ne_unadmitted_of_finishItem {s : State} {i : Instr} {p : Item} {e : ItemEffect}
    (h : (s.finishItem i p e).marked = false) (a : Nat) : e ≠ .unadmitted a := by
  rintro rfl
  exact absurd (State.marked_eq_false_iff.1 h).1 (Option.some_ne_none _)

/-- R203, R206: while items remain, an item that does not fault leaves the command active. -/
theorem State.finishItem_active {s : State} {i : Instr} {p : Item} {e : ItemEffect} (he : ∀ a, e ≠ .unadmitted a)
    (hne : s.pending.erase p ≠ []) : (s.finishItem i p e).active = s.active := by
  obtain ⟨hpending, -, hgoes, -⟩ := State.finishItem_retiredFrom he s i p
  exact (hgoes (hpending ▸ hne)).2

/-- R244: when a command's items run to an unmarked end, each of them was admitted: what it does in a memory that
agrees with the running one on the read footprint is no fault. -/
theorem ne_unadmitted_of_run {i : Instr} {m : Mem} {n : Nat} {s t : State} (hs : s.Inv) (hactive : s.active = some i)
    (hin : s.inputs = []) (hn : s.pending.length = n)
    (hagree : ∀ a, i.readFootprint.holds a = true → s.mem.read a = m.read a)
    (hrun : Host.Core.run Sys2Proof.core n s = .next t) (ht : t.marked = false) :
    ∀ it ∈ s.pending, ∀ a, itemOf i s.params m it ≠ .unadmitted a := by
  induction n generalizing s with
  | zero => exact absurd (List.length_eq_zero_iff.1 hn) (hs.running i hactive).1
  | succ n ih =>
    have hw := hs.accepted i hactive
    obtain ⟨u, hstep, hrest⟩ := run_succ_eq_next hrun
    obtain ⟨p, hnext⟩ := State.nextItem_isSome (hs.running i hactive).1
    have hu : u.Inv := stepKeepsInvariant s u hs hstep
    rw [step_of_silent (marked_eq_false_of_run hrun ht) hin hactive] at hstep
    have hkeep := fun a ha => (exec_read_readFootprint hs hactive hstep ha).trans (hagree a ha)
    obtain rfl := Host.Outcome.next.inj ((exec_item hactive hnext).symm.trans hstep)
    have hok := ne_unadmitted_of_finishItem (marked_eq_false_of_run hrest ht)
    have hpending := (State.finishItem_retiredFrom hok s i p).1
    intro it hit
    by_cases hip : it = p
    · subst hip
      rwa [← itemOf_congr hw hagree]
    · have hleft : it ∈ s.pending.erase p := (List.mem_erase_of_ne hip).2 hit
      have hlen := List.length_erase_of_mem (State.nextItem_mem hnext)
      rw [← s.finishItem_params i p _]
      refine ih hu ?_ ?_ ?_ hkeep hrest it (hpending ▸ hleft)
      · rw [State.finishItem_active hok (List.ne_nil_of_mem hleft), hactive]
      · rw [State.finishItem_inputs, hin]
      · rw [hpending]
        omega

/-- `m` is what the pending items of `i` make of the memory of `s`: each byte reads as an item stored it, or as it was. -/
structure EndMemory (i : Instr) (s : State) (m : Mem) : Prop where
  wf : m.wf = true
  unstored : ∀ a, (∀ it ∈ s.pending, ∀ b bs, itemOf i s.params s.mem it = .store b bs → a < b ∨ b + bs.length ≤ a) →
    m.read a = s.mem.read a
  stored : ∀ it ∈ s.pending, ∀ b bs, itemOf i s.params s.mem it = .store b bs →
    ∀ k (h : k < bs.length), m.read (b + k) = bs[k]

/-- R58, R62: each byte is stored by one item or by none, so the items leave one memory only. -/
theorem EndMemory.unique {i : Instr} {s : State} {m m' : Mem} (h : EndMemory i s m) (h' : EndMemory i s m') :
    m = m' := by
  refine Mem.ext_of_read h.wf h'.wf fun a => ?_
  by_cases hst : ∃ it ∈ s.pending, ∃ b bs, itemOf i s.params s.mem it = .store b bs ∧ b ≤ a ∧ a < b + bs.length
  · obtain ⟨it, hit, b, bs, he, hlo, hhi⟩ := hst
    obtain ⟨k, rfl⟩ := Nat.exists_eq_add_of_le hlo
    have hk : k < bs.length := by omega
    rw [h.stored it hit b bs he k hk, h'.stored it hit b bs he k hk]
  · have hout : ∀ it ∈ s.pending, ∀ b bs, itemOf i s.params s.mem it = .store b bs → a < b ∨ b + bs.length ≤ a := by
      intro it hit b bs he
      by_contra hcon
      exact hst ⟨it, hit, b, bs, he, by omega, by omega⟩
    rw [h.unstored a hout, h'.unstored a hout]

/-- R203, R209: the items of a command that ends unmarked store what they do in the memory it began with. -/
theorem endMemory_of_run {i : Instr} {s t : State} (hs : s.Inv) (hactive : s.active = some i) (hin : s.inputs = [])
    (hrun : Host.Core.run Sys2Proof.core s.pending.length s = .next t) (ht : t.marked = false) :
    EndMemory i s t.mem := by
  have hw := hs.accepted i hactive
  obtain ⟨hne, hsub⟩ := hs.running i hactive
  obtain ⟨n, hn⟩ : ∃ n, s.pending.length = n + 1 := Nat.exists_eq_succ_of_ne_zero (by simpa using hne)
  obtain ⟨u, hrun', -, hwf, -, -, -, -, hout, hstored⟩ :=
    run_items (i := i) (E := itemOf i s.params s.mem) (m0 := s.mem) (R := fun a => i.readFootprint.holds a = true)
      (L := s.pending)
      (fun it _ m hagree => itemOf_congr hw hagree s.params it)
      (ne_unadmitted_of_run hs hactive hin rfl (fun _ _ => rfl) hrun ht)
      (fun it hit a bs he => ⟨itemOf_store_bound he, fun x h1 h2 =>
        not_readFootprint_of_writeFootprint hw (itemOf_store_inside (hsub.subset hit) he h1 h2)⟩)
      (fun it hit jt hjt hne a bs b cs he he' =>
        itemOf_stores_apart (hsub.subset hit) (hsub.subset hjt) hne he he')
      n s hn (List.Subset.refl _) ((indexSpace_nodup i).sublist hsub) (marked_eq_false_of_run hrun ht)
      (s.quietFor_of_silent hin _) hactive rfl hs.memory fun _ _ => rfl
  rw [hn, hrun'] at hrun
  obtain rfl := Host.Outcome.next.inj hrun
  exact ⟨hwf, hout, hstored⟩

/-- Settles O54: either schedule ends with the one memory that the items leave. -/
theorem scheduleDoesNotChangeMemory : Obligations.ScheduleDoesNotChangeMemory := by
  intro s t t' i picks draws hs _ hin hactive hrun hrun' ht ht'
  have hs' : ({ s with picks := picks, draws := draws } : State).Inv := { hs with }
  obtain ⟨hwf, hout, hstored⟩ := endMemory_of_run hs' hactive hin hrun' ht'
  exact (endMemory_of_run hs hactive hin hrun ht).unique ⟨hwf, hout, hstored⟩

/-! ### An accepted doorbell (R201, R202) -/

/-- R86: a non-negative i32 operand has the value 0 when all its bits are 0. -/
theorem natOfI32_eq_zero_iff {v : Word} (h : 0 ≤ v.toInt) : natOfI32 v = 0 ↔ v = 0 := by
  rw [natOfI32_eq_toNat h]
  exact BitVec.toNat_inj (y := 0#32)

/-- R93, D25: the grid without a cell, of operands that are not negative. -/
theorem gridEmpty_iff {i : Instr} {g w : Word} (hshape : i.gridShape = some (g, w)) (hg : 0 ≤ g.toInt)
    (hw : 0 ≤ w.toInt) : i.gridEmpty = true ↔ g = 0 ∧ w = 0 := by
  simp only [Instr.gridEmpty, hshape, Bool.and_eq_true, decide_eq_true_eq, natOfI32_eq_zero_iff hg,
    natOfI32_eq_zero_iff hw]

theorem mem_itemsAtStart {i : Instr} {it : Item} :
    it ∈ i.itemsAtStart ↔ it ∈ i.indexSpace ∧ ¬i.gridEmpty = true := by
  rw [Instr.itemsAtStart]
  split <;> simp [*]

/-- Settles O15: the accepted command starts with its items, and is complete when there are none. -/
theorem acceptedCommandStarts : Obligations.AcceptedCommandStarts := by
  intro s i nx ny empty hactive _ hw hshape
  have hmem : ∀ x y, (x, y) ∈ i.itemsAtStart ↔ x < nx ∧ y < ny ∧ ¬empty := by
    intro x y
    rw [mem_itemsAtStart, ← and_assoc]
    cases i with
    | init grid seed w ex ey =>
      obtain ⟨rfl, rfl, hempty⟩ := hshape
      exact and_congr mem_grid2D (iff_of_true Bool.false_ne_true hempty)
    | step cur nxt g w ex ey =>
      obtain ⟨rfl, rfl, hempty⟩ := hshape
      obtain ⟨hg0, hw0, -⟩ := wellFormed_step hw
      exact and_congr mem_grid2D (not_congr ((gridEmpty_iff rfl hg0 hw0).trans hempty.symm))
    | render grid out g w xo yo width ey =>
      obtain ⟨hnx, rfl, hempty⟩ := hshape
      obtain ⟨hg0, hw0, -, -, hwd0, -⟩ := wellFormed_render hw
      obtain rfl : nx = natOfI32 width := Int.ofNat_inj.1 (hnx.trans (natOfI32_cast hwd0).symm)
      exact and_congr mem_grid2D (not_congr ((gridEmpty_iff rfl hg0 hw0).trans hempty.symm))
  refine ⟨s.start i, exec_accepted hactive hw, hmem, (indexSpace_nodup i).sublist (itemsAtStart_sublist i), ?_, ?_,
    rfl, rfl, rfl, ⟨rfl, rfl, rfl, rfl, rfl⟩, rfl, rfl⟩
  · intro hpos
    have hne : i.itemsAtStart ≠ [] := List.ne_nil_of_mem ((hmem 0 0).2 hpos)
    simp [hne]
  · intro hnone
    have hnil : i.itemsAtStart = [] := by
      refine List.eq_nil_iff_forall_not_mem.2 fun ⟨x, y⟩ hit => ?_
      obtain ⟨hx, hy, hne⟩ := (hmem x y).1 hit
      rcases hnone with h | h | h
      · omega
      · omega
      · exact hne h
    simp [hnil]

/-- R201, R231: the due doorbell of an idle block runs the command that its registers spell. -/
theorem step_of_decodedDoorbell {s : State} {a : HostAction} {rest : List Input} {d : Descriptor} {i : Instr}
    (h : s.hostMoves a rest) (hd : s.isDoorbell a) (hbusy : s.busy = false) (hdesc : s.desc = writtenRegs d)
    (hi : decode d = .ok i) : step s = exec i (s.setInputs rest) := by
  rw [step_of_doorbell h hd, doorbell, State.setInputs_busy, hbusy, State.setInputs_desc, hdesc, snapshot_writtenRegs]
  simp only [hi, Bool.false_eq_true, if_false]

theorem decode_of_decodeTableWord {nbits w : Nat} {i : Instr} (h : decodeTableWord nbits w = some i) :
    decode (layOut nbits w) = .ok i := by
  rw [decodeTableWord] at h
  split at h
  next j hj => rw [hj, Option.some.inj h]
  next => exact absurd h (Option.some_ne_none i).symm

/-- Settles O42: the doorbell, the silent host and the waiting host; what `withFetchWord` places is a doorbell. -/
theorem stepRunsDecodedCommand : Obligations.StepRunsDecodedCommand :=
  ⟨fun _ _ _ _ _ => step_of_decodedDoorbell, fun _ _ => step_of_silent, fun _ _ _ _ _ => step_of_waiting,
    fun _ _ _ _ h =>
      step_of_decodedDoorbell ⟨rfl, rfl⟩ ⟨1#32, rfl, rfl⟩ rfl rfl (decode_of_decodeTableWord h)⟩

/-! ### The host's register accesses (R215 H1 to H5) -/

/-- Settles O44: the other registers' places differ from `k`. -/
theorem hostWritesDescriptorRegister : Obligations.HostWritesDescriptorRegister := by
  intro s rest k v h
  refine ⟨_, step_of_descWrite h, Vector.getElem_set_self k.isLt, fun j hj => ?_, rfl⟩
  exact Vector.getElem_set_ne k.isLt j.isLt (Fin.val_ne_of_ne hj.symm)

/-- R25 (H2): the host's read of a written descriptor register. -/
theorem step_of_descRead {s : State} {k : Fin 16} {v : Word} {rest : List Input}
    (h : s.hostMoves (.readReg (regAddr s.params (.desc k)) 32) rest) (hk : s.desc[k] = .written v) :
    step s = .next ((s.setInputs rest).answer (.word v)) := by
  rw [step_of_hostMoves h, hostStep, hostReadReg, State.setInputs_params, regAt_regAddr]
  simp only [State.setInputs_desc, hk]

/-- R26 (H5): the host's read of DOORBELL. -/
theorem step_of_doorbellRead {s : State} {rest : List Input}
    (h : s.hostMoves (.readReg (regAddr s.params .doorbell) 32) rest) :
    step s = .next ((s.setInputs rest).answer (.word 0)) := by
  rw [step_of_hostMoves h, hostStep, hostReadReg, State.setInputs_params, regAt_regAddr]
  rfl

/-- R27: bit 0 of STATUS is BUSY, and no other bit is set. -/
theorem State.statusWord_getLsbD (s : State) (k : Nat) : s.statusWord.getLsbD k = (s.busy && decide (k = 0)) := by
  rw [State.statusWord]
  cases s.busy <;> simp [BitVec.getLsbD_one]

/-- Settles O45: the three reads, and the bits of STATUS. -/
theorem hostReadsRegisters : Obligations.HostReadsRegisters := by
  refine ⟨fun _ _ _ _ => step_of_descRead, fun s rest h => ?_, fun _ _ => step_of_doorbellRead⟩
  refine ⟨s.statusWord, step_of_statusRead h, ?_, fun k hk => ?_⟩
  · rw [State.statusWord_getLsbD, decide_eq_true rfl, Bool.and_true]
  · rw [State.statusWord_getLsbD, decide_eq_false (by omega), Bool.and_false]

/-- Settles O46: the doorbell is rung by bit 0 only, and STATUS is not written. -/
theorem idleRegisterWritesChangeNothing : Obligations.IdleRegisterWritesChangeNothing := by
  refine ⟨fun s rest v h hv => ?_, fun s rest v h => ?_⟩ <;>
    rw [step_of_hostMoves h, hostStep, hostWriteReg, State.setInputs_params, regAt_regAddr]
  simp only [hv, Bool.false_eq_true, if_false]

/-! ### The host's accesses of the data memory (R215 H7, H8) -/

/-- R216: a write races with nothing when the block is not busy, or when it keeps outside both active footprints. -/
theorem State.racedBy_eq_none_iff {s : State} {addr n : Nat} :
    s.racedBy addr n = none ↔ s.busy = false ∨ ∀ i, s.active = some i → ∀ a, addr ≤ a → a < addr + n →
      i.readFootprint.holds a = false ∧ i.writeFootprint.holds a = false := by
  constructor
  · intro h
    rw [or_iff_not_imp_left]
    intro hbusy i hactive a hlo hhi
    obtain ⟨k, rfl⟩ := Nat.exists_eq_add_of_le hlo
    rw [← Bool.or_eq_false_iff, Bool.eq_false_iff, ne_eq, Bool.or_eq_true]
    intro hholds
    have hraced := State.racedBy_eq_some_iff.2
      ⟨hactive, Bool.eq_true_of_not_eq_false hbusy, k, Nat.add_lt_add_iff_left.1 hhi, hholds⟩
    exact absurd (h.symm.trans hraced) (Option.some_ne_none i).symm
  · intro h
    by_contra hne
    obtain ⟨i, hi⟩ := Option.ne_none_iff_exists'.1 hne
    obtain ⟨hactive, hbusy, k, hk, hholds⟩ := State.racedBy_eq_some_iff.1 hi
    rcases h with hidle | hout
    · exact absurd (hidle.symm.trans hbusy) Bool.noConfusion
    · obtain ⟨hr, hwr⟩ := hout i hactive (addr + k) (by omega) (by omega)
      simp [hr, hwr] at hholds

/-- R215 (H7): the host's write of bytes that race with no command. -/
theorem step_of_memWrite {s : State} {addr : Nat} {bytes : List Byte} {rest : List Input}
    (h : s.hostMoves (.writeMem addr bytes) rest) (hb : addr + bytes.length ≤ addressSpace)
    (hr : s.racedBy addr bytes.length = none) : step s = .next ((s.setInputs rest).storeBytes addr bytes) := by
  rw [step_of_hostMoves h, hostStep, hostWriteMem, if_pos (inMemory_iff.2 hb), State.racedBy_setInputs, hr]

/-- R216, R245 (H7'): the host's write that races with the active command. -/
theorem step_of_memWriteRace {s : State} {addr : Nat} {bytes : List Byte} {rest : List Input} {i : Instr}
    (h : s.hostMoves (.writeMem addr bytes) rest) (hb : addr + bytes.length ≤ addressSpace)
    (hr : s.racedBy addr bytes.length = some i) :
    step s = .next ((s.setInputs rest).markFault (.hostRace i (.writeMem addr bytes))) := by
  rw [step_of_hostMoves h, hostStep, hostWriteMem, if_pos (inMemory_iff.2 hb), State.racedBy_setInputs, hr]

/-- Settles O48: outside the footprints the write races with nothing, and the bytes are stored. -/
theorem hostWritesMemory : Obligations.HostWritesMemory := by
  intro s rest addr bytes h hmem hb hout
  exact ⟨_, step_of_memWrite h hb (State.racedBy_eq_none_iff.2 hout), fun k hk => Mem.read_writeBytes_inside hmem hb hk,
    fun a ha => Mem.read_writeBytes_outside hmem hb ha, rfl⟩

/-- Settles O49: the byte inside a footprint makes the write race. -/
theorem hostWriteRaceFaults : Obligations.HostWriteRaceFaults := by
  intro s rest addr bytes i a h hb hbusy hactive hlo hhi hholds
  obtain ⟨k, rfl⟩ := Nat.exists_eq_add_of_le hlo
  exact step_of_memWriteRace h hb (State.racedBy_eq_some_iff.2 ⟨hactive, hbusy, k, by omega, hholds⟩)

/-- R215, R217 (H8, H8'): the host's read of the data memory. -/
theorem step_of_memRead {s : State} {addr n : Nat} {rest : List Input} (h : s.hostMoves (.readMem addr n) rest)
    (hb : addr + n ≤ addressSpace) :
    step s = .next (((s.setInputs rest).useDraws addr n).answer (.bytes (s.hostBytes addr n))) := by
  rw [step_of_hostMoves h, hostStep, hostReadMem, if_pos (inMemory_iff.2 hb)]
  rfl

theorem State.hostBytes_length (s : State) (addr n : Nat) : (s.hostBytes addr n).length = n := by
  rw [State.hostBytes, List.length_map, List.length_range]

theorem State.getElem_hostBytes {s : State} {addr n k : Nat} (hk : k < (s.hostBytes addr n).length) :
    (s.hostBytes addr n)[k] =
      if s.drawnAt (addr + k) then s.racedByte (s.draws + k) (addr + k) else s.mem.read (addr + k) := by
  simp only [State.hostBytes, List.getElem_map, List.getElem_range]

/-- D19: a drawn byte is the old one or the memory's. -/
theorem State.racedByte_cases (s : State) (k a : Nat) :
    s.racedByte k a = s.before.read a ∨ s.racedByte k a = s.mem.read a := by
  rw [State.racedByte]
  split
  · exact .inl rfl
  · exact .inr rfl

/-- R217: a byte outside the write footprint of a running command is not drawn. -/
theorem State.drawnAt_eq_false {s : State} {a : Nat}
    (h : s.busy = false ∨ s.active = none ∨ ∃ i, s.active = some i ∧ i.writeFootprint.holds a = false) :
    s.drawnAt a = false := by
  rw [State.drawnAt]
  rcases h with h | h | ⟨i, h, hw⟩
  · rw [h, Bool.false_and]
  · simp [h]
  · simp [h, hw]

/-- Settles O50: of the bytes returned, only the drawn ones may be other than the memory's, and those are old. -/
theorem hostReadsMemory : Obligations.HostReadsMemory := by
  intro s rest addr n h hb
  refine ⟨_, s.hostBytes addr n, step_of_memRead h hb, rfl, s.hostBytes_length addr n, fun k hk hout => ?_,
    fun k hk => ?_, rfl⟩
  · rw [State.getElem_hostBytes, State.drawnAt_eq_false hout]
    rfl
  · rw [State.getElem_hostBytes]
    split
    · exact s.racedByte_cases _ _
    · exact .inr rfl

/-! ### Who changes the data memory (R205) -/

/-- An action of the host changes a byte by writing it; a command that it starts or moves, inside the command's write
footprint. -/
theorem HostEffect.read_ne {a : HostAction} {s t : State} {o : Host.Outcome State Fault Refusal}
    (h : HostEffect a s o) (ho : o = .next t) (hs : s.Inv) {x : Nat} (hne : t.mem.read x ≠ s.mem.read x) :
    (∃ i, s.active = some i ∧ i.writeFootprint.holds x = true) ∨
      ∃ addr bytes, a = .writeMem addr bytes ∧ addr ≤ x ∧ x < addr + bytes.length := by
  cases h with
  | command i _ => exact .inl ⟨i, exec_read_ne hs ho hne⟩
  | write addr bytes ha hb _ =>
    obtain rfl := Host.Outcome.next.inj ho
    refine .inr ⟨addr, bytes, ha, ?_⟩
    by_contra hcon
    exact hne (Mem.read_writeBytes_outside hs.memory hb (by omega))
  | _ => obtain rfl := Host.Outcome.next.inj ho; exact absurd rfl hne

/-- Settles O40: by whose move it is. -/
theorem memoryChangesOnlyInFootprint : Obligations.MemoryChangesOnlyInFootprint := by
  intro s t x hs h hne
  obtain ⟨-, ⟨n, a, rest, hin, he⟩ | ⟨i, l, hactive, he⟩ | ⟨-, rfl⟩⟩ := step_next_cases h
  · rcases he.read_ne rfl (hs.setInputs rest) hne with hw | ⟨addr, bytes, rfl, hx⟩
    · exact .inl hw
    · exact .inr ⟨n, addr, bytes, rest, hin, hx⟩
  · exact .inl ⟨i, exec_read_ne (hs.setInputs l) he hne⟩
  · exact absurd rfl hne

/-! ### What a racing read may return (R217, D19) -/

/-- With no command there is nothing to race with. -/
theorem State.RaceInv.of_inactive {s : State} (h : s.active = none) : s.RaceInv :=
  fun i hi => absurd (h.symm.trans hi) (Option.some_ne_none i).symm

/-- Settles O60: no command is active at reset. -/
theorem raceInvariantAtReset : Obligations.RaceInvariantAtReset :=
  ⟨.of_inactive rfl, fun _ => .of_inactive⟩

/-- A command that starts finds its footprints as they are. -/
theorem State.RaceInv.start (s : State) (i : Instr) : (s.start i).RaceInv :=
  fun _ _ => ⟨fun _ _ => rfl, fun _ _ => .inl rfl⟩

/-- D19: the byte at `a` is as it was at the doorbell of `i`, or as an item performed so far stored it. -/
def State.OldOrStored (s : State) (i : Instr) (a : Nat) : Prop :=
  s.mem.read a = s.before.read a ∨
    ∃ it b bs k, it ∈ i.indexSpace ∧ it ∉ s.pending ∧ itemOf i s.params s.before it = .store b bs ∧ a = b + k ∧
      bs[k]? = some (s.mem.read a)

theorem State.raceInv_iff {s : State} :
    s.RaceInv ↔ ∀ i, s.active = some i →
      (∀ a, i.readFootprint.holds a = true → s.mem.read a = s.before.read a) ∧
        ∀ a, i.writeFootprint.holds a = true → s.OldOrStored i a := Iff.rfl

/-- A byte left as it is stays old or stored: what is pending only gets less. -/
theorem State.OldOrStored.of_unchanged {s t : State} {i : Instr} {a : Nat} (h : s.OldOrStored i a)
    (hmem : t.mem.read a = s.mem.read a) (hbefore : t.before = s.before) (hparams : t.params = s.params)
    (hpending : t.pending ⊆ s.pending) : t.OldOrStored i a := by
  rw [State.OldOrStored, hmem, hbefore, hparams]
  exact h.imp_right fun ⟨it, b, bs, k, hit, hperformed, hstored⟩ =>
    ⟨it, b, bs, k, hit, fun hin => hperformed (hpending hin), hstored⟩

theorem State.finishItem_pending_subset (s : State) (i : Instr) (p : Item) (e : ItemEffect) :
    (s.finishItem i p e).pending ⊆ s.pending := by
  cases e with
  | skip => exact List.erase_subset
  | store a bs => exact List.erase_subset
  | unadmitted a => exact List.Subset.refl _

/-- R206: an item starts no command. -/
theorem State.active_of_finishItem {s : State} {i j : Instr} {p : Item} {e : ItemEffect}
    (h : (s.finishItem i p e).active = some j) : s.active = some j := by
  cases e with
  | skip => exact (Option.ite_none_left_eq_some.1 h).2
  | store a bs => exact (Option.ite_none_left_eq_some.1 h).2
  | unadmitted a => exact h

/-- R62, R203: the item in turn leaves each byte as it was, or stores it, and is then performed. -/
theorem State.RaceInv.item {s : State} {i : Instr} {p : Item} (hrace : s.RaceInv) (hs : s.Inv)
    (hactive : s.active = some i) (hnext : s.nextItem = some p) :
    (s.finishItem i p (itemOf i s.params s.mem p)).RaceInv := by
  have hexec := exec_item hactive hnext
  obtain ⟨hread, hwrite⟩ := State.raceInv_iff.1 hrace i hactive
  refine State.raceInv_iff.2 fun j hj => ?_
  obtain rfl := Option.some.inj (hactive.symm.trans (State.active_of_finishItem hj))
  refine ⟨fun a ha => ?_, fun a ha => ?_⟩
  · rw [s.finishItem_before]
    exact (exec_read_readFootprint hs hactive hexec ha).trans (hread a ha)
  · by_cases hkept : (s.finishItem i p (itemOf i s.params s.mem p)).mem.read a = s.mem.read a
    · exact (hwrite a ha).of_unchanged hkept (s.finishItem_before i p _) (s.finishItem_params i p _)
        (s.finishItem_pending_subset i p _)
    · obtain ⟨q, b, bs, -, hq, he, hlo, hhi⟩ := exec_read_ne_stored hs.memory hexec hkept
      obtain rfl := Option.some.inj (hnext.symm.trans hq)
      obtain ⟨k, rfl⟩ := Nat.exists_eq_add_of_le hlo
      have hk : k < bs.length := by omega
      have hnodup := (indexSpace_nodup i).sublist (hs.running i hactive).2
      have hstored := Mem.read_writeBytes_inside hs.memory (itemOf_store_bound he) hk
      rw [he]
      refine .inr ⟨p, b, bs, k, hs.nextItem_mem_indexSpace hactive hnext, hnodup.not_mem_erase, ?_, rfl, ?_⟩
      · exact (itemOf_congr (hs.accepted i hactive) hread s.params p).symm.trans he
      · rw [List.getElem?_eq_getElem hk]
        exact congrArg some hstored.symm

/-- A step of a command, its submission or one of its items, keeps the invariant of the race. -/
theorem exec_keeps_raceInv {i : Instr} {s t : State} (hs : s.Inv) (hrace : s.RaceInv) (h : exec i s = .next t) :
    t.RaceInv := by
  rcases exec_cases i s with ⟨-, c, he⟩ | ⟨-, -, he⟩ | ⟨-, -, he⟩ | ⟨p, hactive, hnext, he⟩ <;>
    obtain rfl := Host.Outcome.next.inj (he.symm.trans h)
  · exact hrace
  · exact .start s i
  · exact .of_inactive rfl
  · exact hrace.item hs hactive hnext

/-- R216: a host write that races with no command leaves the footprints of a running one as they are. -/
theorem State.RaceInv.hostWrite {s : State} {addr : Nat} {bytes : List Byte} (hrace : s.RaceInv) (hs : s.Inv)
    (hb : addr + bytes.length ≤ addressSpace) (hr : s.racedBy addr bytes.length = none) :
    (s.storeBytes addr bytes).RaceInv := by
  refine State.raceInv_iff.2 fun i hactive => ?_
  obtain ⟨hread, hwrite⟩ := State.raceInv_iff.1 hrace i hactive
  have hbusy : s.busy = true := by rw [hs.busyActive, show s.active = some i from hactive]; rfl
  have hout := (State.racedBy_eq_none_iff.1 hr).resolve_left (by rw [hbusy]; decide) i hactive
  have hkept : ∀ a, i.readFootprint.holds a = true ∨ i.writeFootprint.holds a = true →
      (s.storeBytes addr bytes).mem.read a = s.mem.read a := by
    intro a ha
    refine Mem.read_writeBytes_outside hs.memory hb ?_
    by_contra hin
    obtain ⟨hnr, hnw⟩ := hout a (by omega) (by omega)
    simp [hnr, hnw] at ha
  exact ⟨fun a ha => (hkept a (.inl ha)).trans (hread a ha),
    fun a ha => (hwrite a ha).of_unchanged (hkept a (.inr ha)) rfl rfl (List.Subset.refl _)⟩

/-- An action of the host keeps the invariant of the race: but for a write, a command and a reset, it changes nothing
the invariant speaks of. -/
theorem HostEffect.keeps_raceInv {a : HostAction} {s t : State} {o : Host.Outcome State Fault Refusal}
    (h : HostEffect a s o) (ho : o = .next t) (hs : s.Inv) (hrace : s.RaceInv) : t.RaceInv := by
  cases h with
  | command i _ => exact exec_keeps_raceInv hs hrace ho
  | write addr bytes _ hb hr => exact Host.Outcome.next.inj ho ▸ hrace.hostWrite hs hb hr
  | reset _ => exact Host.Outcome.next.inj ho ▸ .of_inactive rfl
  | _ => obtain rfl := Host.Outcome.next.inj ho; exact hrace

/-- Settles O59: the host's move, the active command's and the idle step each keep the invariant of the race. -/
theorem racedBytesAreOldOrWritten : Obligations.RacedBytesAreOldOrWritten := by
  intro s t hs hrace h
  obtain ⟨-, ⟨n, a, rest, -, he⟩ | ⟨i, l, -, he⟩ | ⟨-, rfl⟩⟩ := step_next_cases h
  · exact he.keeps_raceInv rfl (hs.setInputs rest) hrace
  · exact exec_keeps_raceInv (hs.setInputs l) hrace he
  · exact hrace

end Sys2Proof.Machine
end

section
/-! Proofs of 60_exceptions.md: the doorbell's checks 1 to 4 (R232 to R235), the checks 5 to 10 of a submission in their
order (R231, R236 to R241), register accesses that reach no register (R242), accesses that are not admitted (R244), and
the idle block (R257). -/

namespace Sys2Proof.Machine

/-! ### The first failing check (R231) -/

/-- No condition of the list holds. -/
def NoneFails : List (Prop × RefusalCode) → Prop
  | [] => True
  | (P, _) :: rest => ¬P ∧ NoneFails rest

/-- A check that the model computes as `b`, before the checks that follow it. -/
theorem FirstFailing.cons_ite {P : Prop} {c : RefusalCode} {rest : List (Prop × RefusalCode)} {b : Bool}
    {o : Option RefusalCode} (hb : b = true ↔ P) (hrest : ¬P → FirstFailing rest o) :
    FirstFailing ((P, c) :: rest) (if b then some c else o) := by
  by_cases hP : P
  · exact .inl ⟨hP, if_pos (hb.2 hP)⟩
  · rw [if_neg (mt hb.1 hP)]
    exact .inr ⟨hP, hrest hP⟩

/-- A check that passes is passed over. -/
theorem FirstFailing.ite_of_false {l : List (Prop × RefusalCode)} {c : RefusalCode} {b : Bool}
    {o : Option RefusalCode} (hb : b = false) (h : FirstFailing l o) : FirstFailing l (if b then some c else o) := by
  rwa [hb, if_neg Bool.false_ne_true]

/-- With a failing condition in the list some code is reported, and it is that condition's when no earlier one fails. -/
theorem FirstFailing.eq_some {l : List (Prop × RefusalCode)} {o : Option RefusalCode} (h : FirstFailing l o) (k : Nat)
    {P : Prop} {c : RefusalCode} (hk : l[k]? = some (P, c)) (hP : P) :
    ∃ c', o = some c' ∧ (NoneFails (l.take k) → c' = c) := by
  induction l generalizing k with
  | nil => exact nomatch hk
  | cons q l ih =>
    cases k with
    | zero =>
      obtain rfl := Option.some.inj hk
      obtain ⟨-, ho⟩ | ⟨hno, -⟩ := h
      · exact ⟨c, ho, fun _ => rfl⟩
      · exact absurd hP hno
    | succ k =>
      obtain ⟨hq, ho⟩ | ⟨-, hl⟩ := h
      · exact ⟨q.2, ho, fun hnone => absurd hq hnone.1⟩
      · obtain ⟨c', ho, hc⟩ := ih hl k hk
        exact ⟨c', ho, fun hnone => hc hnone.2⟩

/-- The code reported is that of a condition that holds. -/
theorem FirstFailing.exists_mem {l : List (Prop × RefusalCode)} {c : RefusalCode} (h : FirstFailing l (some c)) :
    ∃ P, (P, c) ∈ l ∧ P := by
  induction l with
  | nil => exact nomatch h
  | cons q l ih =>
    obtain ⟨hq, hc⟩ | ⟨-, hl⟩ := h
    · obtain rfl := Option.some.inj hc
      exact ⟨q.1, List.mem_cons_self, hq⟩
    · obtain ⟨P, hmem, hP⟩ := ih hl
      exact ⟨P, List.mem_cons_of_mem q hmem, hP⟩

/-! ### Each check against the operands' exact values (R12, R236 to R241) -/

section
variable {i : Instr} {g w : Word}

theorem hasGridNotMult32_iff (hshape : i.gridShape = some (g, w)) (hg : 0 ≤ g.toInt) :
    hasGridNotMult32 i = true ↔ g.toInt % 32 ≠ 0 := by
  rw [hasGridNotMult32, hshape, ← natOfI32_cast hg, decide_eq_true_eq]
  omega

theorem hasWidthMismatch_iff (hshape : i.gridShape = some (g, w)) (hg : 0 ≤ g.toInt) (hw : 0 ≤ w.toInt) :
    hasWidthMismatch i = true ↔ w.toInt ≠ g.toInt / 32 := by
  rw [hasWidthMismatch, hshape, ← natOfI32_cast hg, ← natOfI32_cast hw, decide_eq_true_eq]
  omega

/-- R205: the last address of a grid's footprint, in exact integers. -/
theorem gridEnd_cast (base : Nat) (hg : 0 ≤ g.toInt) (hw : 0 ≤ w.toInt) :
    ((base + 4 * natOfI32 g * natOfI32 w : Nat) : Int) = base + 4 * (g.toInt * w.toInt) := by
  push_cast
  rw [natOfI32_cast hg, natOfI32_cast hw, mul_assoc]

/-- R205: the last address of a window's footprint, in exact integers. -/
theorem windowEnd_cast (base : Nat) (hw : 0 ≤ w.toInt) (rows : Nat) :
    ((base + natOfI32 w * rows : Nat) : Int) = base + w.toInt * rows := by
  push_cast
  rw [natOfI32_cast hw]
end

theorem overflows_iff (r : ByteRange) : r.overflows = true ↔ EndsPastMemory r.lo r.hi := by
  rw [ByteRange.overflows, Bool.and_eq_true, ByteRange.nonempty_iff, decide_eq_true_eq, EndsPastMemory, addressSpace]
  omega

theorem overlaps_iff_shareAByte (r q : ByteRange) : r.overlaps q = true ↔ ShareAByte r.lo r.hi q.lo q.hi := by
  rw [ByteRange.overlaps, decide_eq_true_eq]
  constructor
  · intro h
    exact ⟨max r.lo q.lo, by omega⟩
  · rintro ⟨a, h⟩
    omega

theorem hasFootprintOverflow_iff (i : Instr) :
    hasFootprintOverflow i = true ↔ EndsPastMemory i.readFootprint.lo i.readFootprint.hi ∨
      EndsPastMemory i.writeFootprint.lo i.writeFootprint.hi := by
  rw [hasFootprintOverflow, Bool.or_eq_true, overflows_iff, overflows_iff]

theorem not_endsPastMemory_of_le {lo hi : Int} (h : hi ≤ 2 ^ 64) : ¬EndsPastMemory lo hi :=
  fun hpast => h.not_gt hpast.2

theorem not_endsPastMemory_self (a : Int) : ¬EndsPastMemory a a := fun h => Int.lt_irrefl a h.1

/-- R205, R240: INIT reads nothing, and its write footprint is empty when `ex = 0`. -/
theorem hasFootprintOverflow_init {grid : Addr} {seed w ex ey : Word} (hw : 0 ≤ w.toInt) :
    hasFootprintOverflow (.init grid seed w ex ey) = true ↔
      0 < ex.toNat ∧ EndsPastMemory grid.toNat (grid.toNat + 4 * (ey.toNat * w.toInt)) := by
  rw [hasFootprintOverflow_iff, Instr.readFootprint, Instr.writeFootprint, or_iff_right (not_endsPastMemory_self _)]
  split
  next hex => exact iff_of_false (not_endsPastMemory_self _) fun h => h.1.ne' hex
  next hex =>
    rw [and_iff_right (Nat.pos_of_ne_zero hex)]
    push_cast
    rw [natOfI32_cast hw, mul_assoc]

/-- R231: the conditions of checks 5 to 10 that a command's row can fail, with their codes, in their order. -/
def submissionChecks : Instr → List (Prop × RefusalCode)
  | .init grid _ w ex ey =>
    [(w.toInt < 0, .negativeParam), (grid.toNat % 4 ≠ 0, .misalignedWordBuffer),
      (0 < ex.toNat ∧ EndsPastMemory grid.toNat (grid.toNat + 4 * (ey.toNat * w.toInt)), .footprintOverflow)]
  | .step cur nxt g w _ _ =>
    [(g.toInt < 0 ∨ w.toInt < 0, .negativeParam), (g.toInt % 32 ≠ 0, .gridNotMult32),
      (w.toInt ≠ g.toInt / 32, .widthMismatch), (cur.toNat % 4 ≠ 0 ∨ nxt.toNat % 4 ≠ 0, .misalignedWordBuffer),
      (EndsPastMemory cur.toNat (cur.toNat + 4 * (g.toInt * w.toInt)) ∨
        EndsPastMemory nxt.toNat (nxt.toNat + 4 * (g.toInt * w.toInt)), .footprintOverflow),
      (ShareAByte cur.toNat (cur.toNat + 4 * (g.toInt * w.toInt)) nxt.toNat (nxt.toNat + 4 * (g.toInt * w.toInt)),
        .bufferOverlap)]
  | .render grid out g w xo yo width ey =>
    [(g.toInt < 0 ∨ w.toInt < 0 ∨ xo.toInt < 0 ∨ yo.toInt < 0 ∨ width.toInt < 0, .negativeParam),
      (g.toInt % 32 ≠ 0, .gridNotMult32), (w.toInt ≠ g.toInt / 32, .widthMismatch),
      (grid.toNat % 4 ≠ 0, .misalignedWordBuffer),
      (EndsPastMemory grid.toNat (grid.toNat + 4 * (g.toInt * w.toInt)) ∨
        EndsPastMemory out.toNat (out.toNat + width.toInt * ey.toNat), .footprintOverflow),
      (ShareAByte grid.toNat (grid.toNat + 4 * (g.toInt * w.toInt)) out.toNat (out.toNat + width.toInt * ey.toNat),
        .bufferOverlap)]

/-- INIT: checks 6, 7 and 10 cannot fail. -/
theorem submissionCheck_init (grid : Addr) (seed w ex ey : Word) :
    FirstFailing (submissionChecks (.init grid seed w ex ey)) (submissionCheck (.init grid seed w ex ey)) := by
  refine .cons_ite (by simp [hasNegativeParam, Instr.i32Operands, isNegative_iff]) fun hneg => ?_
  refine .ite_of_false rfl (.ite_of_false rfl ?_)
  refine .cons_ite (by simp [hasMisalignedWordBuffer, Instr.wordBuffers]) fun _ => ?_
  refine .cons_ite (hasFootprintOverflow_init (Int.not_lt.1 hneg)) fun _ => ?_
  exact .ite_of_false (by simp [hasBufferOverlap, Instr.readFootprint, ByteRange.overlaps]) rfl

/-- STEP: the operands that passed check 5 have their exact values. -/
theorem submissionCheck_step (cur nxt : Addr) (g w ex ey : Word) :
    FirstFailing (submissionChecks (.step cur nxt g w ex ey)) (submissionCheck (.step cur nxt g w ex ey)) := by
  refine .cons_ite (by simp [hasNegativeParam, Instr.i32Operands, isNegative_iff]) fun hneg => ?_
  have hg : 0 ≤ g.toInt := by omega
  have hw : 0 ≤ w.toInt := by omega
  refine .cons_ite (hasGridNotMult32_iff rfl hg) fun _ => ?_
  refine .cons_ite (hasWidthMismatch_iff rfl hg hw) fun _ => ?_
  refine .cons_ite (by simp [hasMisalignedWordBuffer, Instr.wordBuffers]) fun _ => ?_
  rw [← gridEnd_cast cur.toNat hg hw, ← gridEnd_cast nxt.toNat hg hw]
  exact .cons_ite (hasFootprintOverflow_iff _) fun _ => .cons_ite (overlaps_iff_shareAByte _ _) fun _ => rfl

/-- RENDER: the operands that passed check 5 have their exact values. -/
theorem submissionCheck_render (grid out : Addr) (g w xo yo width ey : Word) :
    FirstFailing (submissionChecks (.render grid out g w xo yo width ey))
      (submissionCheck (.render grid out g w xo yo width ey)) := by
  refine .cons_ite (by simp [hasNegativeParam, Instr.i32Operands, isNegative_iff]) fun hneg => ?_
  have hg : 0 ≤ g.toInt := by omega
  have hw : 0 ≤ w.toInt := by omega
  have hwd : 0 ≤ width.toInt := by omega
  refine .cons_ite (hasGridNotMult32_iff rfl hg) fun _ => ?_
  refine .cons_ite (hasWidthMismatch_iff rfl hg hw) fun _ => ?_
  refine .cons_ite (by simp [hasMisalignedWordBuffer, Instr.wordBuffers]) fun _ => ?_
  rw [← gridEnd_cast grid.toNat hg hw, ← windowEnd_cast out.toNat hwd ey.toNat]
  exact .cons_ite (hasFootprintOverflow_iff _) fun _ => .cons_ite (overlaps_iff_shareAByte _ _) fun _ => rfl

/-- R231: the model's check reports the first condition of the command's row that fails. -/
theorem submissionCheck_firstFailing : ∀ i : Instr, FirstFailing (submissionChecks i) (submissionCheck i)
  | .init grid seed w ex ey => submissionCheck_init grid seed w ex ey
  | .step cur nxt g w ex ey => submissionCheck_step cur nxt g w ex ey
  | .render grid out g w xo yo width ey => submissionCheck_render grid out g w xo yo width ey

/-! ### What a submission to an idle block answers -/

/-- Settles O14: the model's check reports the first failing condition, and its answer is the step's. -/
theorem firstFailingCheckIsReported : Obligations.FirstFailingCheckIsReported :=
  fun _ h =>
    ⟨fun _ _ _ _ _ => ⟨_, submissionCheck_init _ _ _ _ _, exec_idle h⟩,
      fun _ _ _ _ _ _ => ⟨_, submissionCheck_step _ _ _ _ _ _, exec_idle h⟩,
      fun _ _ _ _ _ _ _ _ => ⟨_, submissionCheck_render _ _ _ _ _ _ _ _, exec_idle h⟩⟩

/-- A submission whose `k`-th condition fails is refused, with that condition's code when no earlier one fails. -/
theorem exec_refused {s : State} {i : Instr} (h : s.active = none) (k : Nat) {P : Prop} {c : RefusalCode}
    {Q : RefusalCode → Prop} (hk : (submissionChecks i)[k]? = some (P, c)) (hP : P)
    (hQ : ∀ c', (NoneFails ((submissionChecks i).take k) → c' = c) → Q c') :
    ∃ c', exec i s = .next (s.refusedFor c' i) ∧ Q c' := by
  obtain ⟨c', hcheck, hc⟩ := (submissionCheck_firstFailing i).eq_some k hk hP
  exact ⟨c', by rw [exec_idle h, hcheck]; rfl, hQ c' hc⟩

/-- A submission with the first condition failing is refused with its code. -/
theorem exec_refused_first {s : State} {i : Instr} (h : s.active = none) {P : Prop} {c : RefusalCode}
    (hk : (submissionChecks i)[0]? = some (P, c)) (hP : P) : exec i s = .next (s.refusedFor c i) := by
  obtain ⟨_, he, rfl⟩ := exec_refused (Q := (· = c)) h 0 hk hP fun _ hc => hc trivial
  exact he

/-- A submission to a block without a refusal mark is not refused with a code whose condition does not hold. -/
theorem exec_ne_refusedFor {s : State} {i : Instr} {c : RefusalCode} (h : s.active = none) (hr : s.refused = none)
    (hc : ∀ P, (P, c) ∈ submissionChecks i → ¬P) : exec i s ≠ .next (s.refusedFor c i) := by
  rw [exec_idle h]
  intro heq
  have href := congrArg State.refused (Host.Outcome.next.inj heq)
  cases hcheck : submissionCheck i with
  | none => simp [hcheck, hr, State.refusedFor] at href
  | some c' =>
    obtain ⟨P, hmem, hP⟩ := (hcheck ▸ submissionCheck_firstFailing i).exists_mem
    obtain rfl : c' = c := by simpa [hcheck, hr, State.refusedFor] using href
    exact hc P hmem hP

/-- Settles O8: the negative operands are the first condition of each command. -/
theorem negativeOperandRefused : Obligations.NegativeOperandRefused :=
  fun _ h => ⟨fun _ _ _ _ _ => exec_refused_first h rfl, fun _ _ _ _ _ _ => exec_refused_first h rfl,
    fun _ _ _ _ _ _ _ _ => exec_refused_first h rfl⟩

/-- Settles O9: only the negative operands are checked before. -/
theorem gridNotMultipleOf32Refused : Obligations.GridNotMultipleOf32Refused := by
  refine fun s h => ⟨fun cur nxt g w ex ey hP => ?_, fun grid out g w xo yo width ey hP => ?_⟩
  · exact exec_refused h 1 rfl hP fun c hc hg hw => hc ⟨by omega, trivial⟩
  · exact exec_refused h 1 rfl hP fun c hc hg hw hxo hyo hwd => hc ⟨by omega, trivial⟩

/-- Settles O10: the negative operands and the multiple of 32 are checked before. -/
theorem widthMismatchRefused : Obligations.WidthMismatchRefused := by
  refine fun s h => ⟨fun cur nxt g w ex ey hP => ?_, fun grid out g w xo yo width ey hP => ?_⟩
  · exact exec_refused h 2 rfl hP fun c hc hg hw h32 => hc ⟨by omega, by omega, trivial⟩
  · exact exec_refused h 2 rfl hP fun c hc hg hw hxo hyo hwd h32 => hc ⟨by omega, by omega, trivial⟩

/-- Settles O11: the checks of the operands' values come before, and RENDER's row asks nothing of its output address. -/
theorem misalignedWordBufferRefused : Obligations.MisalignedWordBufferRefused := by
  refine fun s h => ⟨fun grid seed w ex ey hP => ?_, fun cur nxt g w ex ey hP => ?_,
    fun grid out g w xo yo width ey hP => ?_, fun grid out g w xo yo width ey hr hgrid => ?_⟩
  · exact exec_refused h 1 rfl hP fun c hc hw => hc ⟨by omega, trivial⟩
  · exact exec_refused h 3 rfl hP fun c hc hg hgw => hc ⟨by omega, by omega, by omega, trivial⟩
  · exact exec_refused h 3 rfl hP fun c hc hg hgw hxo hyo hwd => hc ⟨by omega, by omega, by omega, trivial⟩
  · refine exec_ne_refusedFor h hr fun P hmem => ?_
    obtain rfl : P = (grid.toNat % 4 ≠ 0) := by simpa [submissionChecks] using hmem
    exact not_not_intro hgrid

/-- Settles O12: the checks of the operands' values and of the alignment come before. -/
theorem footprintOverflowRefused : Obligations.FootprintOverflowRefused := by
  refine fun s h => ⟨fun grid seed w ex ey hP => ?_, fun cur nxt g w ex ey hg hw hP => ?_,
    fun grid out g w xo yo width ey hg hw hwd hP => ?_⟩
  · exact exec_refused h 2 rfl hP fun c hc hw hgrid => hc ⟨by omega, by omega, trivial⟩
  · exact exec_refused h 4 rfl hP fun c hc hgw hcur hnxt => hc ⟨by omega, by omega, by omega, by omega, trivial⟩
  · exact exec_refused h 4 rfl hP fun c hc hgw hxo hyo hgrid =>
      hc ⟨by omega, by omega, by omega, by omega, trivial⟩

/-- Settles O13: every other check comes before, and INIT's row has no condition with this code. -/
theorem overlappingBuffersRefused : Obligations.OverlappingBuffersRefused := by
  refine fun s h => ⟨fun cur nxt g w ex ey hg hw hP => ?_, fun grid out g w xo yo width ey hg hw hwd hP => ?_,
    fun grid seed w ex ey hr => ?_⟩
  · refine exec_refused h 5 rfl hP fun c hc hgw hcur hnxt hread hwrite =>
      hc ⟨by omega, by omega, by omega, by omega, ?_⟩
    exact ⟨not_or.2 ⟨not_endsPastMemory_of_le hread, not_endsPastMemory_of_le hwrite⟩, trivial⟩
  · refine exec_refused h 5 rfl hP fun c hc hgw hxo hyo hgrid hread hwrite =>
      hc ⟨by omega, by omega, by omega, by omega, ?_⟩
    exact ⟨not_or.2 ⟨not_endsPastMemory_of_le hread, not_endsPastMemory_of_le hwrite⟩, trivial⟩
  · exact exec_ne_refusedFor h hr fun P hmem => by simp [submissionChecks] at hmem

/-! ### The doorbell's checks 1 to 4 (R232 to R235) -/

/-- Settles O4: being busy is the doorbell's first check. -/
theorem busyDoorbellRefused : Obligations.BusyDoorbellRefused := by
  intro s a rest h hd hbusy
  rw [step_of_doorbell h hd, doorbell]
  exact if_pos hbusy

/-- Settles O5: the doorbell's snapshot fails, and the host's read finds no word. -/
theorem unwrittenDescriptorRefused : Obligations.UnwrittenDescriptorRefused := by
  refine ⟨fun s a rest k h hd hbusy hk => ?_, fun s rest k h hk => ?_⟩
  · rw [step_of_doorbell h hd, doorbell, State.setInputs_busy, hbusy, State.setInputs_desc, snapshot_unwritten hk]
    rfl
  · rw [step_of_hostMoves h, hostStep, hostReadReg, State.setInputs_params, regAt_regAddr]
    simp only [State.setInputs_desc, hk]
    rfl

/-- R234, R235: the due doorbell of an idle block whose registers do not decode is refused with the decoder's code. -/
theorem step_of_undecodedDoorbell {s : State} {a : HostAction} {rest : List Input} {d : Descriptor} {c : RefusalCode}
    (h : s.hostMoves a rest) (hd : s.isDoorbell a) (hbusy : s.busy = false) (hdesc : s.desc = writtenRegs d)
    (hc : decode d = .error c) : step s = .next ((s.setInputs rest).refusedAccess c a) := by
  rw [step_of_doorbell h hd, doorbell, State.setInputs_busy, hbusy, State.setInputs_desc, hdesc, snapshot_writtenRegs]
  simp only [hc]
  rfl

/-- R234: none of the decoder's three opcodes matches. -/
theorem decode_illegalOpcode {d : Descriptor} (h0 : d[0] ≠ 0#32) (h1 : d[0] ≠ 1#32) (h2 : d[0] ≠ 2#32) :
    decode d = .error .illegalOpcode := by
  rw [decode, if_neg h0, if_neg h1, if_neg h2]

/-- Settles O6: the decoder refuses such an opcode. -/
theorem illegalOpcodeRefused : Obligations.IllegalOpcodeRefused :=
  fun _ _ _ _ h hd hbusy hdesc h0 h1 h2 =>
    step_of_undecodedDoorbell h hd hbusy hdesc (decode_illegalOpcode h0 h1 h2)

theorem unlessReserved_of_nonzero {d : Descriptor} {ks : List (Fin 16)} (h : ∃ k ∈ ks, d[k] ≠ 0#32) (i : Instr) :
    unlessReserved d ks i = .error .reservedNonzero := by
  obtain ⟨k, hk, hne⟩ := h
  exact if_neg fun hz => hne (wordsZero_iff.1 hz k hk)

/-- Settles O7: the decoder's opcode matches, and a word of its reserved list is not zero. -/
theorem reservedWordRefused : Obligations.ReservedWordRefused := by
  intro s a rest d h hd hbusy hdesc hres
  refine step_of_undecodedDoorbell h hd hbusy hdesc ?_
  rw [decode]
  rcases hres with ⟨(h0 : d[0] = 0#32), hk⟩ | ⟨(h1 : d[0] = 1#32), hk⟩ | ⟨(h2 : d[0] = 2#32), hk⟩
  · rw [if_pos h0]
    exact unlessReserved_of_nonzero (by simpa [reservedOfInit] using hk) _
  · rw [h1, if_neg (by decide), if_pos rfl]
    exact unlessReserved_of_nonzero (by simpa [reservedOfStep] using hk) _
  · rw [h2, if_neg (by decide), if_neg (by decide), if_pos rfl]
    exact unlessReserved_of_nonzero (by simpa [reservedOfRender] using hk) _

/-! ### Register accesses that reach no register (R242) -/

/-- R24: the eighteen registers stand at the offsets 0x00, 0x04, ..., 0x44. -/
theorem regAddr_eq_offset (p : Params) (r : Reg) : ∃ k, k < 18 ∧ regAddr p r = p.regBase + 4 * k := by
  cases r with
  | desc i => exact ⟨i, by omega, rfl⟩
  | doorbell => exact ⟨16, by decide, rfl⟩
  | status => exact ⟨17, by decide, rfl⟩

theorem regAt_eq_none {p : Params} {addr bits : Nat}
    (h : bits ≠ 32 ∨ ∀ k, k < 18 → addr ≠ p.regBase + 4 * k) : regAt p addr bits = none := by
  refine Option.eq_none_iff_forall_ne_some.2 fun r hr => ?_
  obtain ⟨hbits, haddr⟩ := regAt_eq_some hr
  obtain ⟨k, hk, hoff⟩ := regAddr_eq_offset p r
  rcases h with h | h
  · exact h hbits
  · exact h k hk (haddr.trans hoff)

/-- Settles O47: such an access reaches no register; STATUS and DOORBELL are at the last two offsets. -/
theorem otherRegisterAccessRefused : Obligations.OtherRegisterAccessRefused := by
  refine ⟨fun s rest addr bits v h hno => ?_, fun s rest addr bits h hno => ?_,
    idleRegisterWritesChangeNothing.2, fun _ _ => step_of_doorbellRead⟩
  · rw [step_of_hostMoves h, hostStep, hostWriteReg, State.setInputs_params, regAt_eq_none hno]
    rfl
  · rw [step_of_hostMoves h, hostStep, hostReadReg, State.setInputs_params, regAt_eq_none hno]
    rfl

/-! ### Accesses that are not admitted (R244) -/

/-- R244: the item in turn that meets an access not admitted sets the fault mark and changes nothing else. -/
theorem exec_unadmitted {s : State} {i : Instr} {p : Item} {a : Nat} (hactive : s.active = some i)
    (hnext : s.nextItem = some p) (hitem : itemOf i s.params s.mem p = .unadmitted a) :
    exec i s = .next (s.markFault (.memUnadmitted i p a)) := by
  rw [exec_item hactive hnext, hitem]
  rfl

/-- R247: the first access that is not admitted is the one recorded. -/
theorem guardedStore_unadmitted {p : Params} {l l' : List (Nat × Nat)} {a n : Nat}
    (h : ∀ c ∈ l, p.admits c.1 c.2 = true) (ha : p.admits a n = false) (addr : Nat) (bs : List Byte) :
    guardedStore p (l ++ (a, n) :: l') addr bs = .unadmitted a := by
  rw [guardedStore, firstUnadmitted_append h ha]

/-- R86: a coordinate below the exact value of an operand is below the value the model compares with. -/
theorem lt_natOfI32 {v : Word} {n : Nat} (hv : 0 ≤ v.toInt) (h : (n : Int) < v.toInt) : n < natOfI32 v :=
  Int.ofNat_lt.1 (h.trans_eq (natOfI32_cast hv).symm)

/-- R118, R247: an in-range INIT item makes one access. -/
theorem initItem_unadmitted {p : Params} {grid : Addr} {seed w : Word} {it : Item} (hx : it.1 < natOfI32 w)
    (ha : p.admits (initStoreAddr grid w it) 4 = false) :
    initItem p grid seed w it = .unadmitted (initStoreAddr grid w it) :=
  (initItem_inRange hx).trans (guardedStore_unadmitted (l := []) nofun ha _ _)

/-- R140, R247: an in-range STEP item faults at the first of its ten addresses that is not admitted. -/
theorem stepItem_unadmitted {p : Params} {m : Mem} {cur nxt : Addr} {g w : Word} {it : Item} (hx : it.1 < natOfI32 w)
    (hy : it.2 < natOfI32 g) {before after : List Nat} {a : Nat}
    (haddrs : hoodAddrs cur.toNat (natOfI32 g) (natOfI32 w) it.1 it.2 ++ [stepStoreAddr nxt w it] =
      before ++ a :: after)
    (hbefore : ∀ b ∈ before, p.admits b 4 = true) (ha : p.admits a 4 = false) :
    stepItem p m cur nxt g w it = .unadmitted a := by
  have hmap := congrArg (List.map fun r => (r, 4)) haddrs
  rw [List.map_append, List.map_append] at hmap
  rw [stepItem_inRange hx hy]
  refine (congrArg (guardedStore p · _ _) hmap).trans (guardedStore_unadmitted ?_ ha _ _)
  simpa only [List.forall_mem_map] using hbefore

section
variable {p : Params} {m : Mem} {grid out : Addr} {g w xo yo width : Word} {x y : Nat}

/-- R182, R183: the pixel's coordinates in the grid, as the model's guard has them. -/
theorem renderItem_guards (hg : 0 ≤ g.toInt) (hxo : 0 ≤ xo.toInt) (hyo : 0 ≤ yo.toInt)
    (hx : (x : Int) + xo.toInt < g.toInt) (hy : (y : Int) + yo.toInt < g.toInt) :
    x + natOfI32 xo < natOfI32 g ∧ y + natOfI32 yo < natOfI32 g := by
  rw [← natOfI32_cast hg, ← natOfI32_cast hxo] at hx
  rw [← natOfI32_cast hg, ← natOfI32_cast hyo] at hy
  omega

theorem renderReadAddr_eq (hw : 0 ≤ w.toInt) (hxo : 0 ≤ xo.toInt) (hyo : 0 ≤ yo.toInt) :
    renderReadAddr grid w (x + natOfI32 xo) (y + natOfI32 yo) =
      grid.toNat + 4 * ((y + yo.toNat) * w.toNat + (x + xo.toNat) / 32) := by
  rw [renderReadAddr, natOfI32_eq_toNat hw, natOfI32_eq_toNat hxo, natOfI32_eq_toNat hyo]
  rfl

variable (hx : x + natOfI32 xo < natOfI32 g) (hy : y + natOfI32 yo < natOfI32 g)
include hx hy

/-- R180, R247: an in-grid RENDER item reads first. -/
theorem renderItem_unadmitted_read
    (ha : p.admits (renderReadAddr grid w (x + natOfI32 xo) (y + natOfI32 yo)) 4 = false) :
    renderItem p m grid out g w xo yo width (x, y) =
      .unadmitted (renderReadAddr grid w (x + natOfI32 xo) (y + natOfI32 yo)) :=
  (renderItem_inRange hx hy).trans (guardedStore_unadmitted (l := []) nofun ha _ _)

/-- R180, R247: an in-grid RENDER item whose read is admitted writes next. -/
theorem renderItem_unadmitted_write
    (hread : p.admits (renderReadAddr grid w (x + natOfI32 xo) (y + natOfI32 yo)) 4 = true)
    (ha : p.admits (renderStoreAddr out width (x, y)) 1 = false) :
    renderItem p m grid out g w xo yo width (x, y) = .unadmitted (renderStoreAddr out width (x, y)) :=
  (renderItem_inRange hx hy).trans
    (guardedStore_unadmitted (l := [_]) (List.forall_mem_singleton.2 hread) ha _ _)
end

/-- Settles O21: the access is the first of the item's accesses that is not admitted. -/
theorem unadmittedAccessFaults : Obligations.UnadmittedAccessFaults := by
  refine ⟨fun s grid seed w ex ey x y hactive hnext hw hx hno => ?_,
    fun s cur nxt g w ex ey x y before after a hactive hnext hg hw hx hy haddrs hbefore hno => ?_,
    fun s grid out g w xo yo width ey x y hactive hnext hg hw hxo hyo hwd hx hy hno => ?_,
    fun s grid out g w xo yo width ey x y hactive hnext hg hw hxo hyo hwd hx hy hread hno => ?_⟩
  · rw [← initStoreAddr_eq hw] at hno ⊢
    exact exec_unadmitted hactive hnext (initItem_unadmitted (lt_natOfI32 hw hx) hno)
  · rw [← natOfI32_eq_toNat hg, ← stepStoreAddr_eq hw, ← natOfI32_eq_toNat hw] at haddrs
    exact exec_unadmitted hactive hnext
      (stepItem_unadmitted (lt_natOfI32 hw hx) (lt_natOfI32 hg hy) haddrs hbefore hno)
  · obtain ⟨hx', hy'⟩ := renderItem_guards hg hxo hyo hx hy
    rw [← renderReadAddr_eq hw hxo hyo] at hno ⊢
    exact exec_unadmitted hactive hnext (renderItem_unadmitted_read hx' hy' hno)
  · obtain ⟨hx', hy'⟩ := renderItem_guards hg hxo hyo hx hy
    rw [← renderReadAddr_eq hw hxo hyo] at hread
    rw [← renderStoreAddr_eq hwd] at hno ⊢
    exact exec_unadmitted hactive hnext (renderItem_unadmitted_write hx' hy' hread hno)

/-! ### The idle block (R257) -/

/-- Settles O43: with no host action coming the block moves, and an idle block does nothing. -/
theorem idleBlockStays : Obligations.IdleBlockStays := by
  intro s hm hactive hin
  rw [step_unmarked hm, advance, hin]
  simp only [blockStep, hactive]

end Sys2Proof.Machine
end

section
/-! Proofs of 70_reset_and_hazards.md: the reset event (R260, R261, H9). -/

namespace Sys2Proof.Machine

/-- Settles O51: a due reset is the very next step, and that step is `State.resetBlock`, whether or not a command runs. -/
theorem resetEvent : Obligations.ResetEvent := by
  intro s rest h
  have hstep : step s = .next (s.setInputs rest).resetBlock := step_of_hostMoves h
  exact ⟨_, hstep, fun _ => Vector.getElem_replicate _, State.resetBlock_busy _, State.resetBlock_active _,
    State.resetBlock_pending _, rfl⟩

end Sys2Proof.Machine
end
